-- ==== Sys2Proof/Word.lean ====
section
/-! DEFINITION. The values of the QOIR codec core: bytes, cache slot numbers and pixels (spec/00_scope.md R5, R7). -/

namespace Sys2Proof

/-- A u8: one channel of a pixel, or one byte of a stream (R5 `CH_BITS`, R7). -/
abbrev Byte := BitVec 8

/-- A cache slot number, a u6 in 0..63 (R5 `CACHE_SLOTS`, `IDX_BITS`). -/
abbrev Slot := Fin 64

/-- A Pixel: the 4-tuple `(R, G, B, A)` of u8. Two pixels are equal iff all four channels are (R7, D24). -/
structure Pixel where
  r : Byte
  g : Byte
  b : Byte
  a : Byte
  deriving DecidableEq, Repr

end Sys2Proof
end

