-- ==== Sys2Proof/Syntax.lean ====
section
/-! DEFINITION. The instructions: one constructor per row of spec/opcode_table.json, with the operands of the listing
syntax of spec/30_encoding.md R64 (signed operands are the signed values, not the biased fields). -/

namespace Sys2Proof

/-- The six op-codes and the end marker (R50, R64). -/
inductive Instr where
  /-- RGBA literal: four raw channels (R58). -/
  | rgba (r g b a : Byte)
  /-- RGB literal: three raw channels (R57). -/
  | rgb (r g b : Byte)
  /-- INDEX: a cache slot number (R53). -/
  | index (idx : Slot)
  /-- DIFF: the deltas of R, G and B, each -2..1 (R54). -/
  | diff (dr dg db : Int)
  /-- LUMA: `dg` in -32..31, then `dr - dg` and `db - dg`, each -8..7 (R55). -/
  | luma (dg drg dbg : Int)
  /-- RUN: the run LENGTH 1..62, not the field, which is the length minus one (R56). -/
  | run (len : Nat)
  /-- END: the footer sentinel; not an op-code (R62, R96). -/
  | endMark
  deriving DecidableEq, Repr

/-- The bytes an instruction takes in the stream (R51; R96 for END). -/
def Instr.length : Instr → Nat
  | .rgba _ _ _ _ => 5
  | .rgb _ _ _ => 4
  | .index _ => 1
  | .diff _ _ _ => 1
  | .luma _ _ _ => 2
  | .run _ => 1
  | .endMark => 8

/-- The pixels an instruction stands for (R51): the run length for RUN, none for END, else one. -/
def Instr.pixels : Instr → Nat
  | .rgba _ _ _ _ => 1
  | .rgb _ _ _ => 1
  | .index _ => 1
  | .diff _ _ _ => 1
  | .luma _ _ _ => 1
  | .run len => len
  | .endMark => 0

end Sys2Proof
end

