-- ==== Sys2Proof/WellFormed.lean ====
section
/-! DEFINITION. Which instructions have an encoding: every operand in the range its field carries
(spec/30_encoding.md R59, R64). A slot number is in range by its type. -/

namespace Sys2Proof

/-- `lo <= v <= hi`, both ends included. -/
def inRange (lo hi v : Int) : Bool := decide (lo ≤ v) && decide (v ≤ hi)

/-- Every operand is in the range of R59's table. -/
def Instr.wf : Instr → Bool
  | .rgba _ _ _ _ => true
  | .rgb _ _ _ => true
  | .index _ => true
  | .diff dr dg db => inRange (-2) 1 dr && inRange (-2) 1 dg && inRange (-2) 1 db
  | .luma dg drg dbg => inRange (-32) 31 dg && inRange (-8) 7 drg && inRange (-8) 7 dbg
  | .run len => decide (1 ≤ len) && decide (len ≤ 62)
  | .endMark => true

end Sys2Proof
end

