-- ==== Sys2Proof/Decode.lean ====
section
/-! DEFINITION. Decoding and encoding of the op stream (spec/30_encoding.md), total on any bytes.
The decoder is given ALL the bytes from the op boundary to the end of the stream, because END is END only when
exactly its 8 bytes remain (R62). -/

namespace Sys2Proof

/-- `b[hi:lo]` of R7, as a number: `(b div 2^lo) mod 2^(hi-lo+1)`. -/
def bits (b : Byte) (hi lo : Nat) : Nat := b.toNat / 2 ^ lo % 2 ^ (hi - lo + 1)

/-- `FOOTER` (R5, R96): seven zero bytes, then 01. -/
def footer : List Byte := [0x00, 0x00, 0x00, 0x00, 0x00, 0x00, 0x00, 0x01]

/-- The kinds a first byte can select (R52). -/
inductive Kind where
  | rgba
  | rgb
  | index
  | diff
  | luma
  | run
  deriving DecidableEq, Repr

/-- The bytes an op-code of a kind takes (R51). -/
def Kind.length : Kind → Nat
  | .rgba => 5
  | .rgb => 4
  | .index => 1
  | .diff => 1
  | .luma => 2
  | .run => 1

/-- R52: the two literals are whole-byte matches and are tested first; then the top two bits decide. Total. -/
def kindOf (b0 : Byte) : Kind :=
  if b0 = 0xFF then .rgba
  else if b0 = 0xFE then .rgb
  else if bits b0 7 6 = 0 then .index
  else if bits b0 7 6 = 1 then .diff
  else if bits b0 7 6 = 2 then .luma
  else .run

/-- Why bytes are no instruction. Both are short reads (R146); no byte VALUE is ever rejected (R60). -/
inductive DecodeReject where
  /-- No byte is left. -/
  | noByte
  /-- The op-code of kind `k` needs more bytes than are left. -/
  | shortPayload (k : Kind)
  deriving DecidableEq, Repr

/-- UNPACK (R139) by the formats of R53 to R58: the op-code of kind `k` whose first byte is `b0`, from the bytes after it.
The biases are removed as R59 says. -/
def unpack (k : Kind) (b0 : Byte) (rest : List Byte) : Except DecodeReject (Instr × List Byte) :=
  match k, rest with
  | .rgba, r :: g :: b :: a :: tl => .ok (.rgba r g b a, tl)
  | .rgb, r :: g :: b :: tl => .ok (.rgb r g b, tl)
  | .index, tl => .ok (.index (Fin.ofNat 64 (bits b0 5 0)), tl)
  | .diff, tl => .ok (.diff ((bits b0 5 4 : Int) - 2) ((bits b0 3 2 : Int) - 2) ((bits b0 1 0 : Int) - 2), tl)
  | .luma, b1 :: tl => .ok (.luma ((bits b0 5 0 : Int) - 32) ((bits b1 7 4 : Int) - 8) ((bits b1 3 0 : Int) - 8), tl)
  | .run, tl => .ok (.run (bits b0 5 0 + 1), tl)
  | k, _ => .error (.shortPayload k)

/-- The instruction at an op boundary, and the bytes after it, from all the bytes that remain in the stream:
END exactly when the remaining bytes ARE the footer (R62, R135), else the op-code its first byte selects (R137). -/
def decode (bytes : List Byte) : Except DecodeReject (Instr × List Byte) :=
  if bytes = footer then .ok (.endMark, [])
  else
    match bytes with
    | [] => .error .noByte
    | b0 :: rest => unpack (kindOf b0) b0 rest

/-- The byte an exact value stands for; every value the encoder packs is in 0..255 (R119). -/
def byteOf (v : Int) : Byte := BitVec.ofInt 8 v

/-- PACK (R119): the bytes of an instruction, tag byte first, by R53 to R58 and R64's table; END is the footer (R96). -/
def encode : Instr → List Byte
  | .rgba r g b a => [0xFF, r, g, b, a]
  | .rgb r g b => [0xFE, r, g, b]
  | .index idx => [byteOf (idx.val : Int)]
  | .diff dr dg db => [byteOf (64 + 16 * (dr + 2) + 4 * (dg + 2) + (db + 2))]
  | .luma dg drg dbg => [byteOf (128 + (dg + 32)), byteOf (16 * (drg + 8) + (dbg + 8))]
  | .run len => [byteOf (192 + ((len : Int) - 1))]
  | .endMark => footer

/-- The 8 bytes that spec/opcode_table.json's number `w` of an `nbits`-bit row stands for, every bit above `nbits` 0.
A row of op-code bytes is numbered from its first byte: bit 0 is that byte's least significant bit.
The 64-bit row is END, which the table numbers as "one big-endian 64-bit value" (DESIGN CHOICE, log 16). -/
def tableBytes (nbits w : Nat) : List Byte :=
  let v := w % 2 ^ nbits
  if nbits = 64 then (List.range 8).map fun k => BitVec.ofNat 8 (v / 256 ^ (7 - k))
  else (List.range 8).map fun k => BitVec.ofNat 8 (v / 256 ^ k)

/-- What the decoder reads at an op boundary from the table's word `w` with exactly 8 bytes remaining. -/
def decodeTableWord (nbits w : Nat) : Option Instr :=
  match decode (tableBytes nbits w) with
  | .ok (i, _) => some i
  | .error _ => none

end Sys2Proof
end

