-- ==== Sys2Proof/Config.lean ====
section
/-! DEFINITION. The parameters of spec/00_scope.md R5 (fixed by the source) and R6 (left open, decided by D1 and D4).
The spec leaves no result of an op-code undefined, so there is no free value here. -/

namespace Sys2Proof

/-- R6, D4: the order of the encoder's INDEX and RUN tests. `indexFirst` is this hardware's;
`runFirst` is the alternative the note on D4 sets aside and writes out.
Which of the two the encoder uses is `Machine.selOrder` in Machine/Encoder.lean. -/
inductive SelOrder where
  | indexFirst
  | runFirst
  deriving DecidableEq, Repr

namespace Config

/-- `PREV_INIT` (R5, R11): `(0, 0, 0, 255)`. -/
def prevInit : Pixel := ⟨0, 0, 0, 255⟩

/-- `CACHE_INIT` (R5, R20): the content of every slot at the start of a call, alpha 0. -/
def cacheInit : Pixel := ⟨0, 0, 0, 0⟩

/-- `BASE` (R6, D1): the offset of the first op-code byte in the framed configuration; it is `HEADER_LEN` (R5). -/
def base : Nat := 14

/-- `FOOTER_LEN` (R5). -/
def footerLen : Nat := 8

/-- `RUN_MAX` (R5): the longest run one RUN op carries. -/
def runMax : Nat := 62

end Config

end Sys2Proof
end

