-- ==== Sys2Proof/Machine/State.lean ====
section
/-! DEFINITION. The state of the machine (spec/10_state.md): one encoder engine, one decoder engine, and the list of
what the host does next. Plain data throughout. -/

namespace Sys2Proof.Machine

/-- The configuration of an image (R16). An encode call is given one; a decode call parses one from the header (R100). -/
structure ImageConfig where
  width : BitVec 32
  height : BitVec 32
  channels : Byte
  colorspace : Byte
  deriving DecidableEq, Repr

/-- `N = WIDTH × HEIGHT`, an exact product of naturals (R16, R79). -/
def ImageConfig.pixelCount (c : ImageConfig) : Nat := c.width.toNat * c.height.toNat

/-- The colour cache: an array of 64 whole pixels (R20, R32, R92). -/
abbrev Cache := Vector Pixel 64

/-- The cache at the start of a call: `CACHE_INIT` in every slot (R20, R181). -/
def cacheReset : Cache := Vector.replicate 64 Config.cacheInit

/-- How an encode call can break its precondition (R184, U2, U3). -/
inductive Breach where
  | pixelCount
  | imageConfig
  deriving DecidableEq, Repr

/-- Where an encode call stands: none started, started, header emitted (R97), footer appended and call over (R98, R122),
or asked for with a broken precondition, a call that has no run (R184; DESIGN CHOICE, log 24). -/
inductive EncPhase where
  | idle
  | header
  | ops
  | done
  | refused (b : Breach)
  deriving DecidableEq, Repr

/-- The encoder engine ENC (R10): `PREV`, `CACHE`, `pos`, `OUT`, and the inputs of its call. -/
structure Enc where
  prev : Pixel
  cache : Cache
  pos : Nat
  out : List Byte
  pix : List Pixel
  cfg : ImageConfig
  phase : EncPhase
  deriving DecidableEq, Repr

/-- `DEC.status` (R18). -/
inductive Status where
  | running
  | done
  | failed
  deriving DecidableEq, Repr

/-- The decoder engine DEC (R10): `PREV`, `CACHE`, `off`, `IMG`, `status`, `err_offset`, the input stream `S` of its
call, the four header values, and whether the header is accepted (R138). -/
structure Dec where
  prev : Pixel
  cache : Cache
  off : Nat
  img : List Pixel
  status : Status
  errOffset : Nat
  stream : List Byte
  cfg : ImageConfig
  headerOk : Bool
  deriving DecidableEq, Repr

/-- The two engines (R10). -/
inductive Engine where
  | enc
  | dec
  deriving DecidableEq, Repr

/-- What the host, outside the machine, does next (R9, R183, R184), or which engine moves next (R40: any interleaving). -/
inductive Input where
  | startEncode (cfg : ImageConfig) (pix : List Pixel)
  | startDecode (bytes : List Byte)
  | turn (e : Engine)
  deriving DecidableEq, Repr

/-- The whole machine. `inputs` is the model's own field, not the spec's (DESIGN CHOICE, log 2). -/
structure State where
  enc : Enc
  dec : Dec
  inputs : List Input
  deriving DecidableEq, Repr

/-- Why the machine stops. -/
inductive Fault where
  /-- Raised by `step` (and by a move of an engine whose call is over) when no step is enabled: every call has ended and
  the host asks for nothing (R122, R167). Safe: the hardware does nothing either. -/
  | noStepEnabled
  deriving DecidableEq, Repr

/-- What the model gives no meaning. -/
inductive Refusal where
  /-- An instruction without a meaning yet; no arm of `exec` answers it. Safe. -/
  | notModelled (mnemonic : String)
  /-- Answered by `encStep` when the call to be moved was given a pixel count other than `WIDTH × HEIGHT`: R171, R184 and
  U2 say that a model refuses such a call and gives it no run. `step` reaches it only when no decode call runs and the
  host asks for nothing (log 24). Safe. -/
  | pixelCount
  /-- Answered by `encStep` when the call to be moved was given a `CHANNELS` other than 3 and 4 or a `COLORSPACE` other than
  0 and 1: R97, R184 and U3 say to refuse it. `step` reaches it only when no decode call runs and the host asks for
  nothing (log 24). Safe. -/
  | imageConfig
  deriving DecidableEq, Repr

/-- What one step answers. -/
abbrev Answer := Host.Outcome State Fault Refusal

/-- The configuration before any call: R23 gives none, all zero is the model's choice (DESIGN CHOICE, log 5). -/
def ImageConfig.unset : ImageConfig := ⟨0, 0, 0, 0⟩

/-- ENC at the start of a call with these inputs (R23, R180). -/
def Enc.start (cfg : ImageConfig) (pix : List Pixel) : Enc where
  prev := Config.prevInit
  cache := cacheReset
  pos := 0
  out := []
  pix := pix
  cfg := cfg
  phase := .header

/-- DEC at the start of a call on the stream `bytes` (R23, R180). `err_offset` and the header values have no reset value
in the spec; 0 is the model's choice (DESIGN CHOICE, log 5). -/
def Dec.start (bytes : List Byte) : Dec where
  prev := Config.prevInit
  cache := cacheReset
  off := 0
  img := []
  status := .running
  errOffset := 0
  stream := bytes
  cfg := .unset
  headerOk := false

/-- The machine right after reset, which is the start of a call (R180): DEC at the start of a call that was given no
bytes, ENC with R23's values and no call started (DESIGN CHOICE, log 4). -/
def State.reset : State where
  enc := { Enc.start .unset [] with phase := .idle }
  dec := Dec.start []
  inputs := []

end Sys2Proof.Machine
end

