-- ==== Sys2Proof/Machine/Operands.lean ====
section
/-! DEFINITION. The units ARITH and HASH (spec/40_arith.md R70 to R78) and what they make of an op's operands. All pure. -/

namespace Sys2Proof.Machine

/-- R70: `(a + b) mod 256`; no carry, no flag, no trap. -/
def add8 (a b : Byte) : Byte := a + b

/-- R70, R75: `(a + d) mod 256` for any integer `d`, with the floor remainder of R7. -/
def add8s (a : Byte) (d : Int) : Byte := BitVec.ofInt 8 ((a.toNat : Int) + d)

/-- R71: `(a - b) mod 256`; no borrow. -/
def sub8 (a b : Byte) : Byte := a - b

/-- R72: a byte wrapped to a signed value in -128..127. -/
def s8 (v : Byte) : Int := if v.toNat < 128 then v.toNat else (v.toNat : Int) - 256

/-- R73: the channel delta of `c` against the previous value `p`, in -128..127. -/
def delta (c p : Byte) : Int := s8 (sub8 c p)

/-- R74: `drg` or `dbg`, the wrapped difference of a channel's delta and the green one. -/
def lumaDiff (d dg : Int) : Int := s8 (BitVec.ofInt 8 (d - dg))

/-- R78: the 6-bit hash of a pixel. The products and the sum are exact; only the low 6 bits are kept. -/
def pixelHash (p : Pixel) : Slot :=
  ⟨(p.r.toNat * 3 + p.g.toNat * 5 + p.b.toNat * 7 + p.a.toNat * 11) % 64, Nat.mod_lt _ (by decide)⟩

/-- UNDELTA for DIFF (R75): the deltas on R, G and B; alpha is `PREV`'s. -/
def diffPixel (prev : Pixel) (dr dg db : Int) : Pixel :=
  ⟨add8s prev.r dr, add8s prev.g dg, add8s prev.b db, prev.a⟩

/-- UNDELTA for LUMA (R75): `dr = dg + drg` and `db = dg + dbg` as plain integers; alpha is `PREV`'s. -/
def lumaPixel (prev : Pixel) (dg drg dbg : Int) : Pixel :=
  ⟨add8s prev.r (dg + drg), add8s prev.g dg, add8s prev.b (dg + dbg), prev.a⟩

/-- R141: three raw channels with `PREV`'s alpha. -/
def rgbPixel (prev : Pixel) (r g b : Byte) : Pixel := ⟨r, g, b, prev.a⟩

/-- R110: alpha resolve; the A lane is replaced by 255 exactly when `CHANNELS = 3`. -/
def resolve (channels : Byte) (p : Pixel) : Pixel := if channels = 3 then { p with a := 255 } else p

end Sys2Proof.Machine
end

