-- ==== Sys2Proof/Machine/Flags.lean ====
section
/-! DEFINITION. The hardware has no flags and no condition codes (spec/10_state.md R15). These are the tests the encoder
computes anew for each pixel and that leave no trace (spec/40_arith.md R76, R77; spec/41_cache.md R85). -/

namespace Sys2Proof.Machine

/-- R76: each delta lies in [-2, 1]. -/
def fitsDiff (dr dg db : Int) : Bool := inRange (-2) 1 dr && inRange (-2) 1 dg && inRange (-2) 1 db

/-- R77: `dg` lies in [-32, 31] and both luma differences in [-8, 7]. -/
def fitsLuma (dr dg db : Int) : Bool :=
  inRange (-32) 31 dg && inRange (-8) 7 (lumaDiff dr dg) && inRange (-8) 7 (lumaDiff db dg)

/-- R85: the probed slot holds the very pixel, on all four channels. -/
def isHit (occupant p : Pixel) : Bool := decide (occupant = p)

end Sys2Proof.Machine
end

