-- ==== Sys2Proof/Machine/Ops.lean ====
section
/-! DEFINITION. The shared operations: the colour cache (spec/41_cache.md), reading the stream (spec/20_memory.md R35),
raising the one exception (spec/60_exceptions.md R166) and completing a decoder op (spec/44_decoder.md R146, R147). -/

namespace Sys2Proof.Machine

/-- R86: the whole pixel in a slot. There is no valid bit; a slot never written reads as `CACHE_INIT`. -/
def cacheRead (c : Cache) (i : Slot) : Pixel := c.get i

/-- R87: the pixel goes into its own hash slot, over any previous occupant. -/
def cacheUpdate (c : Cache) (p : Pixel) : Cache := c.set (pixelHash p).val p (pixelHash p).isLt

/-- R85: the slot a pixel belongs to, and whether that slot holds it. -/
def cacheProbe (c : Cache) (p : Pixel) : Slot × Bool := (pixelHash p, isHit (cacheRead c (pixelHash p)) p)

/-- The bytes of the stream from `DEC.off` to its end; its length is `rem` of R135. -/
def Dec.rest (d : Dec) : List Byte := d.stream.drop d.off

/-- `rem = LEN - off` (R135). -/
def Dec.rem (d : Dec) : Nat := d.stream.length - d.off

/-- R166: `raise DecodeError(o)`, as one action. Nothing else is saved and there is no handler; the call is over.
The rest of the engine is void from here on and no port shows it (DEDUCED, log 6). -/
def Dec.raise (d : Dec) (o : Nat) : Dec := { d with errOffset := o, status := .failed }

/-- R138 lines 5 to 8 with R147: append `k` copies of `p`, put `p` into its slot, make it `PREV`, advance by `n` bytes. -/
def Dec.retire (d : Dec) (p : Pixel) (k n : Nat) : Dec :=
  { d with
    img := d.img ++ List.replicate k p
    cache := cacheUpdate d.cache p
    prev := p
    off := d.off + n }

/-- Taking the exception, on the machine: a next state (R166, R167). -/
def raiseDecodeError (o : Nat) (s : State) : State := { s with dec := s.dec.raise o }

/-- A decoder op of `n` bytes that stands for `k` copies of the pixel `p` makes of the engine's state: with fewer than
`n` bytes remaining it raises at its first byte and nothing of it takes effect (R146), else it completes (R147). -/
def decodeOp (n k : Nat) (p : Dec → Pixel) (s : State) : Answer :=
  if s.dec.rem < n then .next (raiseDecodeError s.dec.off s)
  else .next { s with dec := s.dec.retire (p s.dec) k n }

end Sys2Proof.Machine
end

