-- ==== Sys2Proof/Machine/Deltas.lean ====
section
/-! DEFINITION. The delta ops DIFF and LUMA (spec/44_decoder.md R143, R144). -/

namespace Sys2Proof.Machine

/-- R143: the three deltas on `PREV`'s R, G and B, modulo 256; alpha is `PREV`'s. -/
def execDiff (dr dg db : Int) (s : State) : Answer := decodeOp 1 1 (fun d => diffPixel d.prev dr dg db) s

/-- R144: `dr = dg + drg`, `db = dg + dbg`; the three deltas on `PREV`'s R, G and B, modulo 256; alpha is `PREV`'s. -/
def execLuma (dg drg dbg : Int) (s : State) : Answer := decodeOp 2 1 (fun d => lumaPixel d.prev dg drg dbg) s

end Sys2Proof.Machine
end

