-- ==== Sys2Proof/Machine/EndMark.lean ====
section
/-! DEFINITION. END (spec/44_decoder.md R135, R148). -/

namespace Sys2Proof.Machine

/-- R135, R148: the footer ends the call with `DONE`; no pixel, no update, and `off` stays at its first byte. -/
def execEnd (s : State) : Answer := .next { s with dec := { s.dec with status := .done } }

end Sys2Proof.Machine
end

