-- ==== Sys2Proof/Machine/Literals.lean ====
section
/-! DEFINITION. The literals RGBA and RGB (spec/44_decoder.md R140, R141). -/

namespace Sys2Proof.Machine

/-- R140: four raw channels; reads neither `PREV` nor `CACHE`. -/
def execRgba (r g b a : Byte) (s : State) : Answer := decodeOp 5 1 (fun _ => ⟨r, g, b, a⟩) s

/-- R141: three raw channels, alpha inherited from `PREV`. -/
def execRgb (r g b : Byte) (s : State) : Answer := decodeOp 4 1 (fun d => rgbPixel d.prev r g b) s

end Sys2Proof.Machine
end

