-- ==== Sys2Proof/Machine/Lookup.lean ====
section
/-! DEFINITION. INDEX (spec/44_decoder.md R142): the cache lookup. -/

namespace Sys2Proof.Machine

/-- R142: all four channels come from the slot the op names; the update that follows writes the pixel's HASH slot, which
is another one when the slot read was never written (spec/41_cache.md R90). -/
def execIndex (idx : Slot) (s : State) : Answer := decodeOp 1 1 (fun d => cacheRead d.cache idx) s

end Sys2Proof.Machine
end

