-- ==== Sys2Proof/Machine/Runs.lean ====
section
/-! DEFINITION. RUN (spec/44_decoder.md R145). -/

namespace Sys2Proof.Machine

/-- R145: `len` copies of `PREV`; the post-update is made once for the op. -/
def execRun (len : Nat) (s : State) : Answer := decodeOp 1 len (fun d => d.prev) s

end Sys2Proof.Machine
end

