-- ==== Sys2Proof/Machine/Frame.lean ====
section
/-! DEFINITION. The unit FRAME (spec/42_frame.md): the 14-byte header, its emission, validation and acceptance. -/

namespace Sys2Proof.Machine

/-- `MAGIC` (R5, R95): ASCII `qoif`. -/
def magic : List Byte := [0x71, 0x6F, 0x69, 0x66]

/-- R30: a 32-bit field on the wire, most significant byte first. -/
def bigEndian32 (v : BitVec 32) : List Byte :=
  [v.extractLsb' 24 8, v.extractLsb' 16 8, v.extractLsb' 8 8, v.extractLsb' 0 8]

/-- Byte `k` of a stream; read only where the stream is long enough (R8). -/
def byteAt (bytes : List Byte) (k : Nat) : Byte := bytes.getD k 0

/-- R30, R100: the 32-bit big-endian field at offset `k`. -/
def word32At (bytes : List Byte) (k : Nat) : BitVec 32 :=
  byteAt bytes k ++ byteAt bytes (k + 1) ++ byteAt bytes (k + 2) ++ byteAt bytes (k + 3)

/-- R16: `CHANNELS` is 3 or 4. -/
def legalChannels (c : Byte) : Bool := decide (c = 3 ∨ c = 4)

/-- R16: `COLORSPACE` is 0 or 1. -/
def legalColorspace (c : Byte) : Bool := decide (c = 0 ∨ c = 1)

/-- R95, R97: the 14 header bytes of a configuration. -/
def headerBytes (c : ImageConfig) : List Byte :=
  magic ++ bigEndian32 c.width ++ bigEndian32 c.height ++ [c.channels, c.colorspace]

/-- R99: the four checks, in order; the offset of the first that fails. -/
def headerError (bytes : List Byte) : Option Nat :=
  if bytes.length < 4 ∨ bytes.take 4 ≠ magic then some 0
  else if bytes.length ≤ 14 then some (bytes.length - 1)
  else if legalChannels (byteAt bytes 12) = false then some 12
  else if legalColorspace (byteAt bytes 13) = false then some 13
  else none

/-- R100: the four header values. -/
def parseConfig (bytes : List Byte) : ImageConfig where
  width := word32At bytes 4
  height := word32At bytes 8
  channels := byteAt bytes 12
  colorspace := byteAt bytes 13

/-- R100, R151: the header is accepted: the four values, `off` at the first op-code, and for the rest the state of the
start of the call. -/
def Dec.acceptHeader (d : Dec) : Dec :=
  { Dec.start d.stream with cfg := parseConfig d.stream, off := Config.base, headerOk := true }

/-- The decoder's first step: R99, then R100. -/
def headerStep (s : State) : Answer :=
  match headerError s.dec.stream with
  | some o => .next (raiseDecodeError o s)
  | none => .next { s with dec := s.dec.acceptHeader }

end Sys2Proof.Machine
end

