-- ==== Sys2Proof/Machine/Decoder.lean ====
section
/-! DEFINITION. The decoder's loop (spec/44_decoder.md R135 to R138) and what its ports show (spec/70_reset_and_hazards.md R183). -/

namespace Sys2Proof.Machine

/-- A decode call is in progress (R18). -/
def Dec.busy (d : Dec) : Bool := decide (d.status = .running)

/-- One step at an op boundary (R138): the footer test (R135), the truncation test (R136), then the op-code dispatch
selects. The last line is a short read (R146); at least 8 bytes remain there, so no step takes it. -/
def opStep (s : State) : Answer :=
  if s.dec.rest ≠ footer ∧ s.dec.rem < Config.footerLen then .next (raiseDecodeError s.dec.off s)
  else
    match decode s.dec.rest with
    | .ok (i, _) => exec i s
    | .error _ => .next (raiseDecodeError s.dec.off s)

/-- One step of the decoder: the header first (R99), then op-codes (R138). No step once the call is over (R167). -/
def decStep (s : State) : Answer :=
  if s.dec.busy = false then .fault .noStepEnabled
  else if s.dec.headerOk then opStep s
  else headerStep s

/-- A decoded image: the configuration and the pixels (R148). -/
structure Image where
  cfg : ImageConfig
  pixels : List Pixel
  deriving DecidableEq, Repr

/-- What the host can read of a decode call (R183): nothing while it runs, the image on `DONE`, and on `FAILED` the
offset and nothing else (R166). -/
def Dec.result (d : Dec) : Option (Except Nat Image) :=
  match d.status with
  | .running => none
  | .done => some (.ok ⟨d.cfg, d.img⟩)
  | .failed => some (.error d.errOffset)

end Sys2Proof.Machine
end

