-- ==== Sys2Proof/Machine/Encoder.lean ====
section
/-! DEFINITION. The encoder (spec/43_encoder.md): alpha resolve, the selector SEL, the six emissions, the step, and the
header and footer around them (spec/42_frame.md R97, R98). -/

namespace Sys2Proof.Machine

/-- `SEL_ORDER` of this hardware (R6, D4). -/
def selOrder : SelOrder := .indexFirst

/-- `N` of the call (R16). -/
def Enc.n (e : Enc) : Nat := e.cfg.pixelCount

/-- An encode call is in progress. -/
def Enc.busy (e : Enc) : Bool := decide (e.phase = .header ∨ e.phase = .ops)

/-- The unconsumed input pixels, every one resolved (R110, D18). -/
def Enc.upcoming (e : Enc) : List Pixel := ((e.pix.drop e.pos).take (e.n - e.pos)).map (resolve e.cfg.channels)

/-- R114: how many of these pixels, from the first on, equal `PREV`, capped at 62. -/
def runLength (prev : Pixel) (upcoming : List Pixel) : Nat :=
  min Config.runMax (upcoming.takeWhile fun q => decide (q = prev)).length

/-- R113: INDEX with the pixel's hash. -/
def encIndex (p : Pixel) : Instr := .index (pixelHash p)

/-- R114: RUN of the given length. -/
def encRun (len : Nat) : Instr := .run len

/-- R112, R115: DIFF with the three channel deltas. -/
def encDiff (prev p : Pixel) : Instr := .diff (delta p.r prev.r) (delta p.g prev.g) (delta p.b prev.b)

/-- R112, R116: LUMA with the green delta and the two luma differences. -/
def encLuma (prev p : Pixel) : Instr :=
  .luma (delta p.g prev.g) (lumaDiff (delta p.r prev.r) (delta p.g prev.g))
    (lumaDiff (delta p.b prev.b) (delta p.g prev.g))

/-- R117: the RGB literal. -/
def encRgb (p : Pixel) : Instr := .rgb p.r p.g p.b

/-- R118: the RGBA literal. -/
def encRgba (p : Pixel) : Instr := .rgba p.r p.g p.b p.a

/-- R111, tests 2 to 3, made on a cache miss. `len` is the run length R114 would send. -/
def selectMiss (prev : Pixel) (len : Nat) (p : Pixel) : Instr :=
  if p.a = prev.a then
    if p = prev then encRun len
    else if fitsDiff (delta p.r prev.r) (delta p.g prev.g) (delta p.b prev.b) then encDiff prev p
    else if fitsLuma (delta p.r prev.r) (delta p.g prev.g) (delta p.b prev.b) then encLuma prev p
    else encRgb p
  else encRgba p

/-- SEL (R111): INDEX before everything else; under the alternative order of D4's note RUN before INDEX. -/
def select (order : SelOrder) (prev : Pixel) (cache : Cache) (len : Nat) (p : Pixel) : Instr :=
  match order with
  | .indexFirst => if (cacheProbe cache p).2 then encIndex p else selectMiss prev len p
  | .runFirst =>
    if p = prev then encRun len
    else if (cacheProbe cache p).2 then encIndex p
    else selectMiss prev len p

/-- The op the encoder chooses for the resolved pixel `p` (R111, R120 lines 2 and 3). -/
def Enc.choose (e : Enc) (p : Pixel) : Instr :=
  select selOrder e.prev e.cache (runLength e.prev e.upcoming) p

/-- R120 lines 3 to 6 with R121: append the op's bytes, put `p` into its slot, make it `PREV`, advance by the pixels the
op carries. -/
def Enc.retire (e : Enc) (i : Instr) (p : Pixel) : Enc :=
  { e with
    out := e.out ++ encode i
    cache := cacheUpdate e.cache p
    prev := p
    pos := e.pos + i.pixels }

/-- One op-code step on the pixel record `raw` at `pos` (R120). -/
def Enc.opStep (e : Enc) (raw : Pixel) : Enc :=
  let p := resolve e.cfg.channels raw
  e.retire (e.choose p) p

/-- R97: the header, before the first op-code step. -/
def Enc.emitHeader (e : Enc) : Enc := { e with out := e.out ++ headerBytes e.cfg, phase := .ops }

/-- R98, R122: the footer, and the end of the call. -/
def Enc.emitFooter (e : Enc) : Enc := { e with out := e.out ++ footer, phase := .done }

/-- The name under which a call that breaks its precondition is refused (R184, U2, U3). -/
def Breach.refusal : Breach → Refusal
  | .pixelCount => .pixelCount
  | .imageConfig => .imageConfig

/-- ENC when it was asked for a call that has no run (R184): no port shows anything of it (DESIGN CHOICE, log 24). -/
def Enc.refuse (e : Enc) (b : Breach) : Enc := { e with phase := .refused b }

/-- One step of the encoder. A pixel record that is missing though `pos < N` is the broken precondition of R184. A call
that broke its precondition has no step and is refused by name. -/
def encStep (s : State) : Answer :=
  match s.enc.phase with
  | .idle => .fault .noStepEnabled
  | .header => .next { s with enc := s.enc.emitHeader }
  | .ops =>
    if s.enc.pos < s.enc.n then
      match s.enc.pix[s.enc.pos]? with
      | some raw => .next { s with enc := s.enc.opStep raw }
      | none => .next { s with enc := s.enc.refuse .pixelCount }
    else .next { s with enc := s.enc.emitFooter }
  | .done => .fault .noStepEnabled
  | .refused b => .refused b.refusal

/-- What the host can read of an encode call (R17, R184): `OUT`, once the call has ended. -/
def Enc.result (e : Enc) : Option (List Byte) := if e.phase = .done then some e.out else none

end Sys2Proof.Machine
end

