-- ==== Sys2Proof/Machine/Calls.lean ====
section
/-! DEFINITION. Calls: their start (spec/70_reset_and_hazards.md R180 to R184), what the host's inputs do, and a whole
call as a function (spec/43_encoder.md R123, spec/44_decoder.md R151). -/

namespace Sys2Proof.Machine

/-- R180, R183: the start of a decode call on the whole byte sequence; the other engine is not touched (R181). -/
def startDecode (bytes : List Byte) (s : State) : State := { s with dec := Dec.start bytes }

/-- How the input of an encode call breaks the precondition of R184, if it does; the count is looked at first
(DESIGN CHOICE, log 10). -/
def breach (cfg : ImageConfig) (pix : List Pixel) : Option Breach :=
  if pix.length ≠ cfg.pixelCount then some .pixelCount
  else if (legalChannels cfg.channels && legalColorspace cfg.colorspace) = false then some .imageConfig
  else none

/-- R180, R184: the start of an encode call; the other engine is not touched (R181). A call whose precondition is broken
is refused (D17): it gets no run, and everything but the encoder goes on (R40; DESIGN CHOICE, log 24). -/
def startEncode (cfg : ImageConfig) (pix : List Pixel) (s : State) : State :=
  match breach cfg pix with
  | some b => { s with enc := s.enc.refuse b }
  | none => { s with enc := Enc.start cfg pix }

/-- The step when the host says nothing: the running decode call's, else the encoder's (DESIGN CHOICE, log 2). The
encoder's is a fault when no call is in progress and a refusal when the call asked for has no run. -/
def moveBusy (s : State) : Answer := if s.dec.busy then decStep s else encStep s

/-- The step when the host's next action is `i` and `rest` follows it. A call cannot be cancelled (R163), so a start waits
while its engine's call runs; an engine with no call in progress lets its turn pass (DESIGN CHOICE, log 8). -/
def takeInput (i : Input) (rest : List Input) (s : State) : Answer :=
  match i with
  | .startEncode cfg pix => if s.enc.busy then encStep s else .next (startEncode cfg pix { s with inputs := rest })
  | .startDecode bytes => if s.dec.busy then decStep s else .next (startDecode bytes { s with inputs := rest })
  | .turn .enc => if s.enc.busy then encStep { s with inputs := rest } else .next { s with inputs := rest }
  | .turn .dec => if s.dec.busy then decStep { s with inputs := rest } else .next { s with inputs := rest }

/-- `k` steps of the decoder, stopping when its call is over. -/
def decodeRun : Nat → State → Answer
  | 0, s => .next s
  | k + 1, s =>
    if s.dec.busy then
      match decStep s with
      | .next t => decodeRun k t
      | .fault f => .fault f
      | .refused r => .refused r
    else .next s

/-- `k` steps of the encoder, stopping when its call is over. -/
def encodeRun : Nat → State → Answer
  | 0, s => .next s
  | k + 1, s =>
    if s.enc.busy then
      match encStep s with
      | .next t => encodeRun k t
      | .fault f => .fault f
      | .refused r => .refused r
    else .next s

/-- R151: `decode` as a function: a whole decode call from its start. The bound is one step for the header and one for
each byte, which is enough for every stream. -/
def decodeCall (bytes : List Byte) : Option (Except Nat Image) :=
  match decodeRun (bytes.length + 1) (startDecode bytes State.reset) with
  | .next t => t.dec.result
  | _ => none

/-- R123: `encode` as a function: a whole encode call from its start; none where the model refuses the call. The bound is
the header, one step for each pixel, and the footer. -/
def encodeCall (cfg : ImageConfig) (pix : List Pixel) : Option (List Byte) :=
  match encodeRun (pix.length + 2) (startEncode cfg pix State.reset) with
  | .next t => t.enc.result
  | _ => none

/-- The bare core's decode call (R3, D1): `BASE = 0`, the configuration supplied directly, the op stream still ended by the
footer. Offsets count from the first op-code byte. The configuration is not checked: an illegal one runs too, a point on which
D1, R183 and R184 are silent (DESIGN CHOICE, log 19). -/
def bareDecodeCall (cfg : ImageConfig) (bytes : List Byte) : Option (Except Nat Image) :=
  match decodeRun (bytes.length + 1) { State.reset with dec := { Dec.start bytes with cfg := cfg, headerOk := true } } with
  | .next t => t.dec.result
  | _ => none

/-- The bare core's encode call (R3, D1): the op-codes and the footer, without the header. -/
def bareEncodeCall (cfg : ImageConfig) (pix : List Pixel) : Option (List Byte) :=
  match breach cfg pix with
  | some _ => none
  | none =>
    match encodeRun (pix.length + 1) { State.reset with enc := { Enc.start cfg pix with phase := .ops } } with
    | .next t => t.enc.result
    | _ => none

/-- The configuration a loaded test word's header carries (DESIGN CHOICE, log 18). -/
def loadConfig : ImageConfig := ⟨0, 0, 4, 0⟩

/-- The decoder with the bytes `word` from its op boundary to the end of its stream, and enabled to decode there. Where
no header is accepted yet, a stream with a legal header and its acceptance (R100) stand before them (DESIGN CHOICE, log 18). -/
def Dec.load (d : Dec) (word : List Byte) : Dec :=
  if d.headerOk then
    { d with
      stream := d.stream.take d.off ++ List.replicate (d.off - d.stream.length) 0 ++ word
      status := .running }
  else Dec.acceptHeader (Dec.start (headerBytes loadConfig ++ word))

end Sys2Proof.Machine
end

