-- ==== Sys2Proof/Machine/Step.lean ====
section
/-! DEFINITION. One step of the machine: the host's next action if there is one, else the running call. -/

namespace Sys2Proof.Machine

/-- One step. The decoder's step runs the instruction at `DEC.off` (R138). -/
def step (s : State) : Host.Outcome State Fault Refusal :=
  match s.inputs with
  | [] => moveBusy s
  | i :: rest => takeInput i rest s

/-- `s` with the opcode table's word `w` as the next instruction that `step` fetches and runs: exactly 8 bytes remain in
the decoder's stream, the word's and zeros after them, and the host asks for nothing. -/
def State.withFetchWord (s : State) (nbits w : Nat) : State :=
  { s with dec := s.dec.load (tableBytes nbits w), inputs := [] }

end Sys2Proof.Machine
end

