-- ==== Sys2Proof/Machine/Streaming.lean ====
section
/-! DEFINITION. The streaming build of spec/43_encoder.md R125: an encoder that is given one resolved pixel at a time and
holds a run counter in place of the look-ahead. Not normative and not on `step`'s path; the spec says it gives the same
bytes as R120, and a statement says so of this model. -/

namespace Sys2Proof.Machine

/-- `PREV`, `CACHE`, the run counter 0..62 and `OUT` of the streaming build (R22, R125). -/
structure Streaming where
  prev : Pixel
  cache : Cache
  run : Nat
  out : List Byte
  deriving DecidableEq, Repr

/-- R125 *flush*: emit the run, update once with `PREV`, clear the counter. -/
def Streaming.flush (t : Streaming) : Streaming :=
  { t with out := t.out ++ encode (encRun t.run), cache := cacheUpdate t.cache t.prev, run := 0 }

/-- R125 with `run = 0`: on a miss that repeats `PREV` begin to count, otherwise select and emit by R111. -/
def Streaming.fresh (t : Streaming) (p : Pixel) : Streaming :=
  if (cacheProbe t.cache p).2 = false ∧ p = t.prev then { t with run := 1 }
  else
    { t with
      out := t.out ++ encode (select .indexFirst t.prev t.cache 0 p)
      cache := cacheUpdate t.cache p
      prev := p }

/-- R125: one arriving resolved pixel. -/
def Streaming.arrive (t : Streaming) (p : Pixel) : Streaming :=
  if t.run = 0 then t.fresh p
  else if p = t.prev then
    if t.run + 1 = Config.runMax then Streaming.flush { t with run := t.run + 1 } else { t with run := t.run + 1 }
  else t.flush.fresh p

/-- R125: the end of the input. -/
def Streaming.finish (t : Streaming) : Streaming := if t.run = 0 then t else t.flush

/-- All the pixels, one after another, then the end of the input. -/
def Streaming.feed (t : Streaming) (pixels : List Pixel) : Streaming := (pixels.foldl Streaming.arrive t).finish

end Sys2Proof.Machine
end

