-- ==== Sys2Proof/Safety.lean ====
section
/-! DEFINITION. The terms the statements use: the invariants of both engines, and what one completed decoder op or one
raised exception does to the whole machine. Nothing here says anything about a register the spec voids: what a decode
call that FAILED leaves in `PREV`, `CACHE`, `off`, `IMG` and the header values is read by no clause (R166, U5). -/

namespace Sys2Proof.Machine

/-- R89: every slot holds its reset value or a pixel whose hash is the slot's number. -/
def SlotSound (c : Cache) : Prop := ∀ i : Slot, cacheRead c i = Config.cacheInit ∨ pixelHash (cacheRead c i) = i

/-- R88: the slot of `PREV`'s hash holds `PREV`. -/
def HoldsPrev (prev : Pixel) (c : Cache) : Prop := cacheRead c (pixelHash prev) = prev

/-- What holds of DEC while its call runs and once it is DONE. -/
structure Dec.Live (d : Dec) : Prop where
  /-- R89 -/
  slots : SlotSound d.cache
  /-- R13, R23: before the header is accepted everything is at its reset value. -/
  beforeHeader : d.headerOk = false →
    d.off = 0 ∧ d.prev = Config.prevInit ∧ d.cache = cacheReset ∧ d.img = [] ∧ d.status = .running
  /-- R13: an accepted header puts `off` at 14 or beyond, and never past the end of the stream. -/
  offRange : d.headerOk = true → Config.base ≤ d.off ∧ d.off ≤ d.stream.length
  /-- R99, R100: the accepted header passed its checks, and the four values are the stream's. -/
  headerKept : d.headerOk = true → headerError d.stream = none ∧ d.cfg = parseConfig d.stream
  /-- R23: at the first op boundary the engine is in its reset state. -/
  beforeFirstOp : d.off ≤ Config.base → d.prev = Config.prevInit ∧ d.cache = cacheReset ∧ d.img = []
  /-- R88: from the second op boundary on, `CACHE[hash(PREV)] == PREV`. -/
  afterFirstOp : Config.base < d.off → HoldsPrev d.prev d.cache
  /-- R148: a call that is DONE stands at the footer. -/
  atDone : d.status = .done → d.rest = footer

/-- The invariant of DEC: its live part, or, once FAILED, an offset inside the stream or at its end. -/
structure Dec.Inv (d : Dec) : Prop where
  live : d.status ≠ .failed → d.Live
  errRange : d.status = .failed → d.errOffset ≤ d.stream.length

/-- What holds of ENC before its first call, while a call runs and once it is over. -/
structure Enc.Live (e : Enc) : Prop where
  /-- R89 -/
  slots : SlotSound e.cache
  /-- R14: `pos <= N`. -/
  posRange : e.pos ≤ e.n
  /-- R184: the call was given exactly `N` pixel records. -/
  count : e.pix.length = e.n
  /-- R23: before the first step the engine is in its reset state. -/
  beforeFirst : e.pos = 0 → e.prev = Config.prevInit ∧ e.cache = cacheReset
  /-- R88: from the second step on, `CACHE[hash(PREV)] == PREV`. -/
  afterFirst : e.pos ≠ 0 → HoldsPrev e.prev e.cache
  /-- R110: with `CHANNELS = 3`, `PREV.A` is 255. -/
  opaqueAlpha : e.cfg.channels = 3 → e.prev.a = 255
  /-- R97: until the header is emitted nothing is consumed and nothing emitted. -/
  beforeHeader : e.phase = .idle ∨ e.phase = .header → e.pos = 0 ∧ e.out = []
  /-- R184: a call that was started has a legal configuration. -/
  legal : e.phase ≠ .idle → legalChannels e.cfg.channels = true ∧ legalColorspace e.cfg.colorspace = true
  /-- R98, R122: a call that is over consumed all its input. -/
  atDone : e.phase = .done → e.pos = e.n

/-- The invariant of ENC: its live part, but for an encoder that was asked for a call without a run (R184), of which
nothing is said (log 24). -/
def Enc.Inv (e : Enc) : Prop := (∀ b, e.phase ≠ .refused b) → e.Live

/-- The invariant of the machine. -/
structure State.Inv (s : State) : Prop where
  enc : s.enc.Inv
  dec : s.dec.Inv

/-- Everything a completed decoder op of `n` bytes that stands for `k` copies of `p` does, and all it leaves alone: it
appends the copies, makes `p` `PREV`, advances `off`, writes ONE slot (R147), and changes nothing else of the machine. -/
structure OpEffect (s t : State) (p : Pixel) (k n : Nat) : Prop where
  img : t.dec.img = s.dec.img ++ List.replicate k p
  prev : t.dec.prev = p
  off : t.dec.off = s.dec.off + n
  slots : ∀ i : Slot, cacheRead t.dec.cache i = if i = pixelHash p then p else cacheRead s.dec.cache i
  status : t.dec.status = s.dec.status
  errOffset : t.dec.errOffset = s.dec.errOffset
  stream : t.dec.stream = s.dec.stream
  cfg : t.dec.cfg = s.dec.cfg
  headerOk : t.dec.headerOk = s.dec.headerOk
  enc : t.enc = s.enc
  inputs : t.inputs = s.inputs

/-- Everything an encoder op-code step that sends `i` for the resolved pixel `p` does (R120, R121), and all it leaves
alone: it appends the op's bytes, writes ONE slot, makes `p` `PREV`, advances by the pixels the op carries, and changes
nothing else of either engine. -/
structure EncOpEffect (s t : State) (i : Instr) (p : Pixel) : Prop where
  out : t.enc.out = s.enc.out ++ encode i
  slots : ∀ j : Slot, cacheRead t.enc.cache j = if j = pixelHash p then p else cacheRead s.enc.cache j
  prev : t.enc.prev = p
  pos : t.enc.pos = s.enc.pos + i.pixels
  pix : t.enc.pix = s.enc.pix
  cfg : t.enc.cfg = s.enc.cfg
  phase : t.enc.phase = s.enc.phase
  dec : t.dec = s.dec

/-- `DecodeError(o)` was raised (R166): the status, the offset, the result of the call is that offset alone, and the
rest of the machine is untouched. -/
structure Raised (s t : State) (o : Nat) : Prop where
  status : t.dec.status = .failed
  errOffset : t.dec.errOffset = o
  result : t.dec.result = some (.error o)
  stream : t.dec.stream = s.dec.stream
  enc : t.enc = s.enc
  inputs : t.inputs = s.inputs

/-- A decode call runs and it is the decoder that moves: the host says nothing, or says that it is the decoder's turn, an
entry the step uses up. `more` is what the host says after that (DESIGN CHOICE, log 2). -/
def DecMoves (s : State) (more : List Input) : Prop :=
  s.dec.status = .running ∧ ((s.inputs = [] ∧ more = []) ∨ s.inputs = .turn .dec :: more)

/-- It is the encoder that moves: the host says nothing and no decode call runs, or the host says that it is the encoder's
turn, whatever the decoder is doing; `more` is what the host says after that (DESIGN CHOICE, log 2). -/
def EncMoves (s : State) (more : List Input) : Prop :=
  (s.inputs = [] ∧ more = [] ∧ s.dec.status ≠ .running) ∨ s.inputs = .turn .enc :: more

/-- The decoder moves, with its header accepted. -/
def AtOpBoundary (s : State) (more : List Input) : Prop := DecMoves s more ∧ s.dec.headerOk = true

/-- The input of an encode call meets its precondition (R184). -/
def LegalInput (cfg : ImageConfig) (pix : List Pixel) : Prop :=
  pix.length = cfg.pixelCount ∧ legalChannels cfg.channels = true ∧ legalColorspace cfg.colorspace = true

end Sys2Proof.Machine
end

