-- ==== Sys2Proof/Certificates/Slice0/Obligations.lean ====
section
/-! DEFINITION. The statements for the provers. Rule numbers are those of spec/. -/

open Sys2Proof Sys2Proof.Machine

/-! ## Arithmetic and the hash -/

/-- R78: the hash computed in wrapping 8-bit arithmetic, of which only the low 6 bits are kept, is the exact one. -/
def Obligations.HashIsTheSameInEightBits : Prop :=
  ∀ p : Pixel, (pixelHash p).val = (p.r * 3 + p.g * 5 + p.b * 7 + p.a * 11 : Byte).toNat % 64

/-- R73: `delta(c, p)` is the unique `d` in -128..127 with `add8s(p, d) = c`. -/
def Obligations.DeltaIsTheUniqueStep : Prop :=
  ∀ c p : Byte, (-128 ≤ delta c p ∧ delta c p ≤ 127) ∧
    ∀ d : Int, -128 ≤ d → d ≤ 127 → (add8s p d = c ↔ d = delta c p)

/-- R70 to R72: every result as an exact remainder modulo 256, the laws `add8(b, sub8(a, b)) = a` and `s8(v) mod 256 = v`,
and the range of `s8`. -/
def Obligations.WrappingArithmeticLaws : Prop :=
  (∀ a b : Byte, add8 b (sub8 a b) = a) ∧
    (∀ a b : Byte, (add8 a b).toNat = (a.toNat + b.toNat) % 256) ∧
    (∀ (a : Byte) (d : Int), ((add8s a d).toNat : Int) = ((a.toNat : Int) + d) % 256) ∧
    (∀ a b : Byte, ((sub8 a b).toNat : Int) = ((a.toNat : Int) - b.toNat) % 256) ∧
    (∀ v : Byte, s8 v % 256 = v.toNat ∧ -128 ≤ s8 v ∧ s8 v ≤ 127)

/-- R74, R77: on deltas in -128..127 the LUMA test accepts exactly what it would accept with plain integer differences. -/
def Obligations.LumaTestNeedsNoWrap : Prop :=
  ∀ dr dg db : Int, -128 ≤ dr → dr ≤ 127 → -128 ≤ dg → dg ≤ 127 → -128 ≤ db → db ≤ 127 →
    (fitsLuma dr dg db = true ↔
      -32 ≤ dg ∧ dg ≤ 31 ∧ -8 ≤ dr - dg ∧ dr - dg ≤ 7 ∧ -8 ≤ db - dg ∧ db - dg ≤ 7)

/-! ## Encoding -/

/-- R52 to R59, R62: decoding the bytes of a well-formed op-code gives it back with the bytes after it, wherever the bytes
that remain are not exactly the footer; the footer decodes to END. -/
def Obligations.DecodeOfEncodeGivesTheInstruction : Prop :=
  (∀ (i : Instr) (rest : List Byte), i.wf = true → i ≠ .endMark → encode i ++ rest ≠ footer →
      decode (encode i ++ rest) = .ok (i, rest)) ∧
    decode (encode .endMark) = .ok (.endMark, [])

/-- R52 to R59: what the decoder reads is well formed, and its encoding followed by the bytes left over is what was read:
no two encodings of one instruction, no bit dropped. -/
def Obligations.EncodeOfDecodeGivesTheBytes : Prop :=
  ∀ (bytes : List Byte) (i : Instr) (rest : List Byte), decode bytes = .ok (i, rest) →
    i.wf = true ∧ encode i ++ rest = bytes

/-- R60, R51: with enough bytes left no byte value is rejected, and the first byte alone decides how many bytes the
op-code takes. -/
def Obligations.EveryFirstByteIsAnOpCode : Prop :=
  ∀ (b0 : Byte) (rest : List Byte), 4 ≤ rest.length → b0 :: rest ≠ footer →
    ∃ (i : Instr) (left : List Byte), decode (b0 :: rest) = .ok (i, left) ∧ i ≠ .endMark ∧
      i.length = (kindOf b0).length ∧ left.length + i.length = rest.length + 1

/-- R62: with any byte after them the eight footer bytes are seven `INDEX 0` and one `INDEX 1`; alone they are END. -/
def Obligations.FooterBytesElsewhereAreEightIndexOps : Prop :=
  (∀ (x : Byte) (rest : List Byte),
      (∀ k : Nat, k < 7 →
        decode (footer.drop k ++ x :: rest) = .ok (.index 0, footer.drop (k + 1) ++ x :: rest)) ∧
      decode (footer.drop 7 ++ x :: rest) = .ok (.index 1, x :: rest)) ∧
    (∀ (bytes rest : List Byte), decode bytes = .ok (.endMark, rest) ↔ bytes = footer ∧ rest = [])

/-- R64's table and R119: the number each packed byte stands for. The bit places these numbers give DIFF's fields and LUMA's
nibbles are the spec's own reading D7 (DEDUCED, log 12). -/
def Obligations.PackedBytesAreTheTablesNumbers : Prop :=
  (∀ idx : Slot, ∃ b : Byte, encode (.index idx) = [b] ∧ b.toNat = idx.val) ∧
    (∀ dr dg db : Int, (Instr.diff dr dg db).wf = true →
      ∃ b : Byte, encode (.diff dr dg db) = [b] ∧
        (b.toNat : Int) = 64 + 16 * (dr + 2) + 4 * (dg + 2) + (db + 2)) ∧
    (∀ dg drg dbg : Int, (Instr.luma dg drg dbg).wf = true →
      ∃ b0 b1 : Byte, encode (.luma dg drg dbg) = [b0, b1] ∧ (b0.toNat : Int) = 128 + (dg + 32) ∧
        (b1.toNat : Int) = 16 * (drg + 8) + (dbg + 8)) ∧
    (∀ len : Nat, (Instr.run len).wf = true →
      ∃ b : Byte, encode (.run len) = [b] ∧ b.toNat = 192 + (len - 1))

/-- R53 to R58: words written out from the formats decode to the instructions they stand for. The bit places in the DIFF and
LUMA words are the spec's own reading D7 (DEDUCED, log 12). -/
def Obligations.WrittenOutWordsDecode : Prop :=
  ∀ tl : List Byte, 8 ≤ tl.length →
    decode (0b00110101#8 :: tl) = .ok (.index 53, tl) ∧
    decode (0b01110110#8 :: tl) = .ok (.diff 1 (-1) 0, tl) ∧
    decode (0b10011111#8 :: 0b00001111#8 :: tl) = .ok (.luma (-1) (-8) 7, tl) ∧
    decode (0b11111101#8 :: tl) = .ok (.run 62, tl) ∧
    decode (0b11111110#8 :: 0xFF#8 :: 0xFE#8 :: 0xFD#8 :: tl) = .ok (.rgb 255 254 253, tl) ∧
    decode (0b11111111#8 :: 1#8 :: 2#8 :: 3#8 :: 4#8 :: tl) = .ok (.rgba 1 2 3 4, tl)

/-- R30, R95, R100: parsing the header of a configuration gives it back, and the header is accepted exactly when its
channel and colourspace bytes are legal and at least one byte follows it. -/
def Obligations.HeaderOfConfigParsesBack : Prop :=
  ∀ (cfg : ImageConfig) (rest : List Byte),
    parseConfig (headerBytes cfg ++ rest) = cfg ∧
    (headerError (headerBytes cfg ++ rest) = none ↔
      legalChannels cfg.channels = true ∧ legalColorspace cfg.colorspace = true ∧ rest ≠ [])

/-! ## The decoder's instructions: result, frame and completion -/

/-- R140: FF selects RGBA. With at least 5 bytes remaining it completes with its four raw channels, reading neither
`PREV` nor `CACHE`, and changes only what `OpEffect` says; with fewer it raises at its first byte. -/
def Obligations.RgbaTakesFourRawChannels : Prop :=
  ∀ r g b a : Byte,
    (∀ rest : List Byte, decode (0xFF :: r :: g :: b :: a :: rest) = .ok (.rgba r g b a, rest)) ∧
    ∀ s : State,
      (5 ≤ s.dec.rem → ∃ t, exec (.rgba r g b a) s = .next t ∧ OpEffect s t ⟨r, g, b, a⟩ 1 5) ∧
      (s.dec.rem < 5 → ∃ t, exec (.rgba r g b a) s = .next t ∧ Raised s t s.dec.off)

/-- R141: FE selects RGB. With at least 4 bytes remaining it completes with its three raw channels and `PREV`'s alpha;
with fewer it raises at its first byte. -/
def Obligations.RgbInheritsAlpha : Prop :=
  ∀ r g b : Byte,
    (∀ rest : List Byte, decode (0xFE :: r :: g :: b :: rest) = .ok (.rgb r g b, rest)) ∧
    ∀ s : State,
      (4 ≤ s.dec.rem → ∃ t, exec (.rgb r g b) s = .next t ∧ OpEffect s t ⟨r, g, b, s.dec.prev.a⟩ 1 4) ∧
      (s.dec.rem < 4 → ∃ t, exec (.rgb r g b) s = .next t ∧ Raised s t s.dec.off)

/-- R142: a first byte with top bits 00 selects INDEX of its low six bits (unless it begins the footer at the end). It
completes with the whole pixel of that slot, alpha included; `PREV` is not read. -/
def Obligations.IndexEmitsTheNamedSlot : Prop :=
  (∀ (b0 : Byte) (rest : List Byte) (h : b0.toNat < 64), b0 :: rest ≠ footer →
      decode (b0 :: rest) = .ok (.index ⟨b0.toNat, h⟩, rest)) ∧
    ∀ (idx : Slot) (s : State), 1 ≤ s.dec.rem →
      ∃ t, exec (.index idx) s = .next t ∧ OpEffect s t (cacheRead s.dec.cache idx) 1 1

/-- R143: a first byte with top bits 01 selects DIFF with the deltas `fr - 2`, `fg - 2`, `fb - 2`. It completes with
`PREV`'s channels plus the deltas modulo 256 and `PREV`'s alpha. That `fr` is bits 5:4, `fg` 3:2 and `fb` 1:0 is the
spec's own reading D7 (DEDUCED, log 12). -/
def Obligations.DiffAddsBiasedDeltas : Prop :=
  (∀ (b0 : Byte) (rest : List Byte), 64 ≤ b0.toNat → b0.toNat < 128 →
      decode (b0 :: rest) =
        .ok (.diff ((b0.toNat / 16 % 4 : Nat) - 2) ((b0.toNat / 4 % 4 : Nat) - 2) ((b0.toNat % 4 : Nat) - 2), rest)) ∧
    ∀ (dr dg db : Int) (s : State), 1 ≤ s.dec.rem →
      ∃ t p, exec (.diff dr dg db) s = .next t ∧ OpEffect s t p 1 1 ∧
        (p.r.toNat : Int) = (s.dec.prev.r.toNat + dr) % 256 ∧
        (p.g.toNat : Int) = (s.dec.prev.g.toNat + dg) % 256 ∧
        (p.b.toNat : Int) = (s.dec.prev.b.toNat + db) % 256 ∧
        p.a = s.dec.prev.a

/-- R144: a first byte with top bits 10 selects LUMA, of two bytes. With at least 2 bytes remaining it completes with
`PREV.R + dg + drg`, `PREV.G + dg`, `PREV.B + dg + dbg` modulo 256 and `PREV`'s alpha; with fewer it raises. That the
high nibble of the second byte is R's and the low one B's is the spec's own reading D7 (DEDUCED, log 12). -/
def Obligations.LumaAddsGreenRelativeDeltas : Prop :=
  (∀ (b0 b1 : Byte) (rest : List Byte), 128 ≤ b0.toNat → b0.toNat < 192 →
      decode (b0 :: b1 :: rest) =
        .ok (.luma ((b0.toNat % 64 : Nat) - 32) ((b1.toNat / 16 : Nat) - 8) ((b1.toNat % 16 : Nat) - 8), rest)) ∧
    ∀ (dg drg dbg : Int) (s : State),
      (2 ≤ s.dec.rem →
        ∃ t p, exec (.luma dg drg dbg) s = .next t ∧ OpEffect s t p 1 2 ∧
          (p.r.toNat : Int) = (s.dec.prev.r.toNat + dg + drg) % 256 ∧
          (p.g.toNat : Int) = (s.dec.prev.g.toNat + dg) % 256 ∧
          (p.b.toNat : Int) = (s.dec.prev.b.toNat + dg + dbg) % 256 ∧
          p.a = s.dec.prev.a) ∧
      (s.dec.rem < 2 → ∃ t, exec (.luma dg drg dbg) s = .next t ∧ Raised s t s.dec.off)

/-- R145: C0..FD select RUN of the low six bits plus one, a length in 1..62. It completes with that many copies of
`PREV`; `PREV` is unchanged and only its hash slot is written, once. -/
def Obligations.RunRepeatsPrev : Prop :=
  (∀ (b0 : Byte) (rest : List Byte), 192 ≤ b0.toNat → b0.toNat < 254 →
      decode (b0 :: rest) = .ok (.run (b0.toNat % 64 + 1), rest) ∧ b0.toNat % 64 + 1 ≤ 62) ∧
    ∀ (len : Nat) (s : State), 1 ≤ s.dec.rem →
      ∃ t, exec (.run len) s = .next t ∧ OpEffect s t s.dec.prev len 1 ∧ t.dec.prev = s.dec.prev

/-- R135, R148: END makes the call DONE with the configuration and the pixels as they stand as its result, and changes
nothing but the status. -/
def Obligations.EndMarkFinishesTheCall : Prop :=
  ∀ s : State, ∃ t, exec .endMark s = .next t ∧ t = { s with dec := { s.dec with status := .done } } ∧
    t.dec.result = some (.ok ⟨s.dec.cfg, s.dec.img⟩)

/-- R146, R165: an op-code that needs more bytes than remain raises at its first byte, and nothing of the op takes effect.
That `IMG`, `PREV`, `CACHE` and `off` keep their content in the FAILED decoder, where R166 and U5 void them and no port
shows them, is the model's choice (DEDUCED, log 6). -/
def Obligations.ShortOpRaisesAndHasNoEffect : Prop :=
  ∀ (i : Instr) (s : State), i ≠ .endMark → s.dec.rem < i.length →
    ∃ t, exec i s = .next t ∧ Raised s t s.dec.off ∧ t.dec.img = s.dec.img ∧ t.dec.prev = s.dec.prev ∧
      t.dec.cache = s.dec.cache ∧ t.dec.off = s.dec.off

/-- R90: INDEX of a slot that holds the reset pixel writes slot 0 and no other. -/
def Obligations.IndexOfUnwrittenSlotWritesSlotZero : Prop :=
  ∀ (idx : Slot) (s : State), 1 ≤ s.dec.rem → cacheRead s.dec.cache idx = ⟨0, 0, 0, 0⟩ →
    ∃ t, exec (.index idx) s = .next t ∧ t.dec.prev = ⟨0, 0, 0, 0⟩ ∧
      cacheRead t.dec.cache 0 = ⟨0, 0, 0, 0⟩ ∧ ∀ i : Slot, i ≠ 0 → cacheRead t.dec.cache i = cacheRead s.dec.cache i

/-- R88: after any op-code step of either engine the slot of the processed pixel's hash holds it, and it is `PREV`; a
decoder op is given its pixel by its own effect. The reset state is the exception. -/
def Obligations.CacheHoldsTheProcessedPixel : Prop :=
  (∀ (i : Instr) (s : State), i ≠ .endMark → i.length ≤ s.dec.rem →
      ∃ t p, exec i s = .next t ∧ OpEffect s t p i.pixels i.length ∧ t.dec.prev = p ∧
        cacheRead t.dec.cache (pixelHash p) = p) ∧
    (∀ (e : Enc) (raw : Pixel),
      (e.opStep raw).prev = resolve e.cfg.channels raw ∧
        cacheRead (e.opStep raw).cache (pixelHash (e.opStep raw).prev) = (e.opStep raw).prev) ∧
    (pixelHash State.reset.dec.prev = 53 ∧ cacheRead State.reset.dec.cache 53 ≠ State.reset.dec.prev)

/-- R10, R21: no instruction touches the encoder, the host's inputs, the input stream, the header values or the accepted
header. That the header values and the rest keep their content also where the instruction raises, though R166 and U5
void the header values of a FAILED decoder, is the model's choice (DEDUCED, log 6). -/
def Obligations.InstructionsTouchOnlyTheDecoder : Prop :=
  ∀ (i : Instr) (s t : State), exec i s = .next t →
    t.enc = s.enc ∧ t.inputs = s.inputs ∧ t.dec.stream = s.dec.stream ∧ t.dec.cfg = s.dec.cfg ∧
      t.dec.headerOk = s.dec.headerOk

/-! ## The decoder's loop -/

/-- R137, R138: at an op boundary with at least 8 bytes remaining, or at the footer, a step is the meaning of the
instruction the bytes from `off` decode to; so it is when the host says it is the decoder's turn. `off` moves in the
meaning itself. At exactly 8 bytes that are not the footer this rests on the spec's reading D11 (DEDUCED, log 13); that
the host's list says whose turn it is, and that the entry is used up, is the model's choice (DESIGN CHOICE, log 2). -/
def Obligations.StepRunsTheDecodedInstruction : Prop :=
  ∀ (s : State) (i : Instr) (left : List Byte), s.dec.status = .running → s.dec.headerOk = true →
    decode s.dec.rest = .ok (i, left) → i = .endMark ∨ 8 ≤ s.dec.rem →
    (s.inputs = [] → step s = exec i s) ∧
      (∀ more : List Input, s.inputs = .turn .dec :: more → step s = exec i { s with inputs := more })

/-- R136: with fewer than 8 bytes remaining that are not the footer, `rem = 0` included, a step raises at `off`; with at
least 8 that are not the footer an op-code is decoded and run. At exactly 8 the second clause is the spec's reading of
the loop condition (D11; DEDUCED, log 13).
The step is the same on the decoder's turn in the host's list (DESIGN CHOICE, log 2). -/
def Obligations.TruncatedStreamFailsAtOff : Prop :=
  ∀ (s : State) (more : List Input), AtOpBoundary s more → s.dec.rest ≠ footer →
    (s.dec.rem < 8 → ∃ t, step s = .next t ∧ Raised { s with inputs := more } t s.dec.off) ∧
      (8 ≤ s.dec.rem → ∃ i left, decode s.dec.rest = .ok (i, left) ∧ i ≠ .endMark ∧
        step s = exec i { s with inputs := more })

/-- R135, R148: a step at exactly the footer ends the call with its image; otherwise a step does not (the footer test is
the spec's reading of the loop condition, D11; DEDUCED, log 13).
The step is the same on the decoder's turn in the host's list (DESIGN CHOICE, log 2). -/
def Obligations.OnlyTheFooterAtTheEndIsDone : Prop :=
  ∀ (s : State) (more : List Input), AtOpBoundary s more →
    (s.dec.rest = footer → ∃ t, step s = .next t ∧ t.dec.status = .done ∧
      t.dec.result = some (.ok ⟨s.dec.cfg, s.dec.img⟩)) ∧
    (s.dec.rest ≠ footer → ∃ t, step s = .next t ∧ t.dec.status ≠ .done)

/-- R146, R136: the short-read check is never the one that fails: where an op-code is reached, at least 8 bytes remain and
the step does not fail. At exactly 8 bytes that are not the footer this rests on the spec's reading D11 (DEDUCED, log 13).
The step is the same on the decoder's turn in the host's list (DESIGN CHOICE, log 2). -/
def Obligations.FramedOpsAreNeverShort : Prop :=
  ∀ (s : State) (more : List Input), AtOpBoundary s more → 8 ≤ s.dec.rem →
    ∃ t, step s = .next t ∧ t.dec.status ≠ .failed

/-- R149: the header values have no effect on an op-code step: with other values the step is the same but for them (the
decoder is channel-blind by the spec's decision D8; DEDUCED, log 22). Where the step raises, the equation also says that
the FAILED decoder keeps its header values and the rest, which R166 and U5 void: that is the model's choice (DEDUCED,
log 6).
The step is the same on the decoder's turn in the host's list (DESIGN CHOICE, log 2). -/
def Obligations.DecoderIsChannelBlind : Prop :=
  ∀ (s t : State) (c : ImageConfig) (more : List Input), AtOpBoundary s more → step s = .next t →
    step { s with dec := { s.dec with cfg := c } } = .next { t with dec := { t.dec with cfg := c } }

/-- R99: the four header checks in order, each with its offset, made by the first step of a call. That a stream of fewer than
4 bytes fails at offset 0 is the spec's decision D25, and the bytes of the magic are its decision D20 (DEDUCED, log 22).
The step is the same on the decoder's turn in the host's list (DESIGN CHOICE, log 2). -/
def Obligations.HeaderChecksInOrder : Prop :=
  ∀ (s : State) (more : List Input), DecMoves s more → s.dec.headerOk = false →
    (s.dec.stream.length < 4 ∨ s.dec.stream.take 4 ≠ [0x71, 0x6F, 0x69, 0x66] →
      ∃ t, step s = .next t ∧ Raised { s with inputs := more } t 0) ∧
    (s.dec.stream.take 4 = [0x71, 0x6F, 0x69, 0x66] → s.dec.stream.length ≤ 14 →
      ∃ t, step s = .next t ∧ Raised { s with inputs := more } t (s.dec.stream.length - 1)) ∧
    (s.dec.stream.take 4 = [0x71, 0x6F, 0x69, 0x66] → 14 < s.dec.stream.length →
      s.dec.stream[12]? ≠ some 3 → s.dec.stream[12]? ≠ some 4 → ∃ t, step s = .next t ∧ Raised { s with inputs := more } t 12) ∧
    (s.dec.stream.take 4 = [0x71, 0x6F, 0x69, 0x66] → 14 < s.dec.stream.length →
      s.dec.stream[12]? = some 3 ∨ s.dec.stream[12]? = some 4 →
      s.dec.stream[13]? ≠ some 0 → s.dec.stream[13]? ≠ some 1 → ∃ t, step s = .next t ∧ Raised { s with inputs := more } t 13)

/-- R100: a header that passes all four checks is accepted: the four values, `off` 14, and otherwise the reset state of
R23, in which the op-code loop begins. The bytes of the magic are the spec's decision D20 (DEDUCED, log 22).
The step is the same on the decoder's turn in the host's list (DESIGN CHOICE, log 2). -/
def Obligations.AcceptedHeaderSetsConfigAndOff : Prop :=
  ∀ (s : State) (more : List Input), DecMoves s more → s.dec.headerOk = false → headerError s.dec.stream = none →
    ∃ t, step s = .next t ∧
      t.dec.cfg.width.toNat = (byteAt s.dec.stream 4).toNat * 2 ^ 24 + (byteAt s.dec.stream 5).toNat * 2 ^ 16 +
        (byteAt s.dec.stream 6).toNat * 2 ^ 8 + (byteAt s.dec.stream 7).toNat ∧
      t.dec.cfg.height.toNat = (byteAt s.dec.stream 8).toNat * 2 ^ 24 + (byteAt s.dec.stream 9).toNat * 2 ^ 16 +
        (byteAt s.dec.stream 10).toNat * 2 ^ 8 + (byteAt s.dec.stream 11).toNat ∧
      t.dec.cfg.channels = byteAt s.dec.stream 12 ∧ t.dec.cfg.colorspace = byteAt s.dec.stream 13 ∧
      t.dec.off = 14 ∧ t.dec.prev = ⟨0, 0, 0, 255⟩ ∧ (∀ i : Slot, cacheRead t.dec.cache i = ⟨0, 0, 0, 0⟩) ∧
      t.dec.img = [] ∧ t.dec.stream = s.dec.stream ∧ t.dec.status = .running ∧ t.dec.headerOk = true ∧
      t.enc = s.enc ∧ t.inputs = more

/-- R18, R167: DONE and FAILED are final: a step that is not the start of a new decode call leaves the decoder as it is. Of a
FAILED decoder R166 and U5 void all but the status and the offset; that the rest stays too is the model's choice
(DEDUCED, log 6). -/
def Obligations.EndedDecodeCallStaysAsItIs : Prop :=
  ∀ s t : State, s.dec.status ≠ .running → (∀ bytes more, s.inputs ≠ .startDecode bytes :: more) →
    step s = .next t → t.dec = s.dec

/-- R122: an encode call that is over stays so: a step that is not the start of a new encode call leaves an encoder with no
call in progress as it is, `OUT` included. For an encoder before its first call, or asked for a call without a run, that
is the model's choice (DESIGN CHOICE, logs 4 and 24). -/
def Obligations.EndedEncodeCallStaysAsItIs : Prop :=
  ∀ s t : State, s.enc.phase ≠ .header → s.enc.phase ≠ .ops →
    (∀ cfg pix more, s.inputs ≠ .startEncode cfg pix :: more) → step s = .next t →
    t.enc = s.enc

/-- R122, R167: an engine whose call is over takes no step. A turn the host gives it passes: only the entry is used up
(DESIGN CHOICE, logs 2 and 8). -/
def Obligations.TurnOfAnEngineWithoutACallPasses : Prop :=
  (∀ (s : State) (more : List Input), s.inputs = .turn .dec :: more → s.dec.status ≠ .running →
      step s = .next { s with inputs := more }) ∧
    ∀ (s : State) (more : List Input), s.inputs = .turn .enc :: more → s.enc.phase ≠ .header → s.enc.phase ≠ .ops →
      step s = .next { s with inputs := more }

/-! ## The encoder -/

/-- R111 in this hardware's order (D4, DESIGN CHOICE, log 11): the first test that succeeds decides. -/
def Obligations.SelectorTakesTheFirstTest : Prop :=
  ∀ (e : Enc) (p : Pixel),
    let dr := delta p.r e.prev.r
    let dg := delta p.g e.prev.g
    let db := delta p.b e.prev.b
    let hit := cacheRead e.cache (pixelHash p) = p
    let diffFits := -2 ≤ dr ∧ dr ≤ 1 ∧ -2 ≤ dg ∧ dg ≤ 1 ∧ -2 ≤ db ∧ db ≤ 1
    let lumaFits := -32 ≤ dg ∧ dg ≤ 31 ∧ -8 ≤ lumaDiff dr dg ∧ lumaDiff dr dg ≤ 7 ∧
      -8 ≤ lumaDiff db dg ∧ lumaDiff db dg ≤ 7
    (hit → e.choose p = .index (pixelHash p)) ∧
    (¬hit → p.a ≠ e.prev.a → e.choose p = .rgba p.r p.g p.b p.a) ∧
    (¬hit → p = e.prev → e.choose p = .run (runLength e.prev e.upcoming)) ∧
    (¬hit → p.a = e.prev.a → p ≠ e.prev → diffFits → e.choose p = .diff dr dg db) ∧
    (¬hit → p.a = e.prev.a → p ≠ e.prev → ¬diffFits → lumaFits →
      e.choose p = .luma dg (lumaDiff dr dg) (lumaDiff db dg)) ∧
    (¬hit → p.a = e.prev.a → p ≠ e.prev → ¬diffFits → ¬lumaFits → e.choose p = .rgb p.r p.g p.b)

/-- R114: the run length is the largest number of pixels, at most 62 and inside the input, that from `pos` on all
resolve to `PREV` (what is compared, and the advance, are the spec's decisions D5 and D6, forced by the decoder). -/
def Obligations.RunLengthIsTheLargest : Prop :=
  ∀ e : Enc, e.pix.length = e.n → e.pos ≤ e.n →
    let len := runLength e.prev e.upcoming
    let repeats := fun l : Nat => l ≤ 62 ∧ e.pos + l ≤ e.n ∧
      ∀ j : Nat, j < l → (e.pix[e.pos + j]?).map (resolve e.cfg.channels) = some e.prev
    repeats len ∧ ∀ l : Nat, repeats l → l ≤ len

/-- R120, R121: an encoder step appends the chosen op's bytes, writes the pixel into its slot, makes it `PREV`, advances
by the pixels the op carries, and leaves the rest of both engines alone. It does so when the host says nothing and no
decode call runs, and when the host says it is the encoder's turn, whatever the decoder is doing. R40 allows any
interleaving; that the host's list says whose turn it is, and what moves when the list is empty, is the model's choice
(DESIGN CHOICE, log 2). -/
def Obligations.EncoderStepEmitsAndUpdates : Prop :=
  ∀ (s : State) (raw : Pixel) (more : List Input), EncMoves s more → s.enc.phase = .ops → s.enc.pos < s.enc.n →
    s.enc.pix[s.enc.pos]? = some raw →
    let p := resolve s.enc.cfg.channels raw
    ∃ t, step s = .next t ∧ EncOpEffect s t (s.enc.choose p) p ∧ t.inputs = more

/-- R97, R98: the header is emitted before the first op-code step, and the footer once `pos = N`, which ends the call;
when the host says nothing and no decode call runs, and on the encoder's turn whatever the decoder is doing (R40; the
host's list of turns is DESIGN CHOICE, log 2, and the two emissions as steps of their own DESIGN CHOICE, log 3). -/
def Obligations.EncoderEmitsHeaderAndFooter : Prop :=
  ∀ (s : State) (more : List Input), EncMoves s more →
    (s.enc.phase = .header → ∃ t, step s = .next t ∧
      t.enc = { s.enc with out := s.enc.out ++ headerBytes s.enc.cfg, phase := .ops } ∧
      t.dec = s.dec ∧ t.inputs = more) ∧
    (s.enc.phase = .ops → s.enc.pos = s.enc.n → ∃ t, step s = .next t ∧
      t.enc = { s.enc with out := s.enc.out ++ [0, 0, 0, 0, 0, 0, 0, 1], phase := .done } ∧
      t.enc.result = some (s.enc.out ++ [0, 0, 0, 0, 0, 0, 0, 1]) ∧ t.dec = s.dec ∧ t.inputs = more)

/-- R119: under either order of D4 every op the encoder selects is well formed, so no field is ever truncated; a run is
offered only with the length R114 measures, which is then in 1..62. -/
def Obligations.SelectedOpsAreWellFormed : Prop :=
  ∀ (order : SelOrder) (e : Enc) (raw : Pixel), e.pos < e.n → e.pix[e.pos]? = some raw →
    (select order e.prev e.cache (runLength e.prev e.upcoming) (resolve e.cfg.channels raw)).wf = true

/-- R124(a): after the first step of a call no RUN is selected. True of this hardware's order of the tests, INDEX_FIRST, and
false of RUN_FIRST (the spec's decision D4; DESIGN CHOICE, log 11). -/
def Obligations.RunOnlyAtTheFirstStep : Prop :=
  ∀ (e : Enc) (p : Pixel) (len : Nat), e.Live → e.pos ≠ 0 → e.choose p ≠ .run len

/-- R110: in a 3-channel call no RGBA literal is selected. -/
def Obligations.ThreeChannelsNeverRgba : Prop :=
  ∀ (e : Enc) (raw : Pixel) (r g b a : Byte), e.Live → e.cfg.channels = 3 →
    e.choose (resolve e.cfg.channels raw) ≠ .rgba r g b a

/-! ## Calls, the host, and the two engines together -/

/-- R180, R181, R183: the start of a decode call gives the decoder R23's values, every slot included, and touches neither
the encoder nor the inputs that follow (the host's list is DESIGN CHOICE, log 2). -/
def Obligations.DecodeCallStartsFromReset : Prop :=
  ∀ (s : State) (bytes : List Byte) (more : List Input), s.inputs = .startDecode bytes :: more →
    s.dec.status ≠ .running →
    ∃ t, step s = .next t ∧ t.dec.prev = ⟨0, 0, 0, 255⟩ ∧ (∀ i : Slot, cacheRead t.dec.cache i = ⟨0, 0, 0, 0⟩) ∧
      t.dec.off = 0 ∧ t.dec.img = [] ∧ t.dec.status = .running ∧ t.dec.headerOk = false ∧ t.dec.stream = bytes ∧
      t.enc = s.enc ∧ t.inputs = more

/-- R180, R181, R184: the start of an encode call on a legal input gives the encoder R23's values, and touches
neither the decoder nor the inputs that follow (the host's list is DESIGN CHOICE, log 2). That a new start begins a fresh
call also after a call that was refused is the model's choice (DESIGN CHOICE, log 24). -/
def Obligations.EncodeCallStartsFromReset : Prop :=
  ∀ (s : State) (cfg : ImageConfig) (pix : List Pixel) (more : List Input),
    s.inputs = .startEncode cfg pix :: more → s.enc.phase ≠ .header → s.enc.phase ≠ .ops → LegalInput cfg pix →
    ∃ t, step s = .next t ∧ t.enc.prev = ⟨0, 0, 0, 255⟩ ∧ (∀ i : Slot, cacheRead t.enc.cache i = ⟨0, 0, 0, 0⟩) ∧
      t.enc.pos = 0 ∧ t.enc.out = [] ∧ t.enc.pix = pix ∧ t.enc.cfg = cfg ∧ t.enc.phase = .header ∧
      t.dec = s.dec ∧ t.inputs = more

/-- R184, R171, D17: an encode call whose precondition is broken has no run: nothing of it can be read, and the model refuses
it by name, the count first (DESIGN CHOICE, log 10), when nothing but that call is left to move. It is that call alone
which is refused (R40, R163): its start leaves the decoder and the inputs that follow, a running decode call takes its
steps, and a turn of the encoder passes (log 8; how the refused call stands in the machine is DESIGN CHOICE, log 24). -/
def Obligations.BrokenEncodeContractIsRefused : Prop :=
  (∀ (s : State) (cfg : ImageConfig) (pix : List Pixel) (more : List Input),
      s.inputs = .startEncode cfg pix :: more → s.enc.phase ≠ .header → s.enc.phase ≠ .ops →
      (pix.length ≠ cfg.pixelCount → ∃ t, step s = .next t ∧ t.enc.phase = .refused .pixelCount ∧
        t.enc.result = none ∧ t.dec = s.dec ∧ t.inputs = more) ∧
      (pix.length = cfg.pixelCount →
        legalChannels cfg.channels = false ∨ legalColorspace cfg.colorspace = false →
        ∃ t, step s = .next t ∧ t.enc.phase = .refused .imageConfig ∧
          t.enc.result = none ∧ t.dec = s.dec ∧ t.inputs = more)) ∧
    (∀ (s : State) (b : Breach), s.enc.phase = .refused b → s.inputs = [] → s.dec.status ≠ .running →
      step s = .refused (match b with
        | .pixelCount => .pixelCount
        | .imageConfig => .imageConfig)) ∧
    (∀ (s : State) (b : Breach) (more : List Input), s.enc.phase = .refused b → DecMoves s more →
      step s = decStep { s with inputs := more } ∧ ∃ t, step s = .next t ∧ t.enc = s.enc) ∧
    (∀ (s : State) (b : Breach) (more : List Input), s.enc.phase = .refused b → s.inputs = .turn .enc :: more →
      step s = .next { s with inputs := more })

/-- R163: a running call is not cancelled, restarted or paused by the start of another one: the step is the engine's own
step of the running call, on the same inputs of that call, and the start stays first in the host's list (the waiting is
the model's choice, DESIGN CHOICE, log 8). -/
def Obligations.RunningCallIsNotCancelled : Prop :=
  (∀ (s : State) (bytes : List Byte) (more : List Input), s.inputs = .startDecode bytes :: more →
      s.dec.status = .running →
      step s = decStep s ∧
        ∃ t, step s = .next t ∧ t.dec.stream = s.dec.stream ∧ t.enc = s.enc ∧ t.inputs = s.inputs) ∧
    ∀ (s : State) (cfg : ImageConfig) (pix : List Pixel) (more : List Input),
      s.inputs = .startEncode cfg pix :: more → s.enc.phase = .header ∨ s.enc.phase = .ops →
      step s = encStep s ∧
        ∃ t, step s = .next t ∧ t.enc.pix = s.enc.pix ∧ t.enc.cfg = s.enc.cfg ∧ t.dec = s.dec ∧ t.inputs = s.inputs

/-- R40: the engines share nothing: a step of each, made in either order, leads to the same machine. Where the decoder's step
raises, the machines agree also in what R166 and U5 void, which the model keeps by its own choice (DEDUCED, log 6). -/
def Obligations.EngineStepsCommute : Prop :=
  ∀ s a b : State, decStep s = .next a → encStep s = .next b →
    ∃ c, encStep a = .next c ∧ decStep b = .next c

/-- R122, R167: when every call is over and the host asks for nothing, no step is enabled; the fault is the model's name
for that (DESIGN CHOICE, log 9). -/
def Obligations.NoStepWhenEveryCallIsOver : Prop :=
  ∀ s : State, s.inputs = [] → s.dec.status ≠ .running → s.enc.phase = .idle ∨ s.enc.phase = .done →
    step s = .fault .noStepEnabled

/-- A table word placed by `withFetchWord` is what the next step runs, whatever the state (the model's loader, DESIGN CHOICE,
log 18). The loader leaves exactly 8 bytes, so for every word but END's this rests on the spec's reading D11 of the loop
condition (DEDUCED, log 13). -/
def Obligations.FetchWordIsRunNext : Prop :=
  ∀ (s : State) (nbits w : Nat) (i : Instr), decodeTableWord nbits w = some i →
    step (s.withFetchWord nbits w) = exec i (s.withFetchWord nbits w)

/-- R91, R152 and the note on D4: under either order of the encoder's tests, the op selected for a pixel, executed by a
decoder whose `PREV` and `CACHE` are the encoder's, appends exactly that pixel, as often as the op carries it, and makes
the same update. -/
def Obligations.DecoderMirrorsTheSelectedOp : Prop :=
  ∀ (order : SelOrder) (len : Nat) (p : Pixel) (s : State),
    let i := select order s.dec.prev s.dec.cache len p
    i.length ≤ s.dec.rem → ∃ t, exec i s = .next t ∧ OpEffect s t p i.pixels i.length

/-- R152: for every legal image, encoding succeeds and decoding the bytes gives the configuration and the resolved pixels
back. -/
def Obligations.DecodeOfEncodeGivesTheImage : Prop :=
  ∀ (cfg : ImageConfig) (pix : List Pixel), LegalInput cfg pix →
    ∃ bytes, encodeCall cfg pix = some bytes ∧
      decodeCall bytes = some (.ok ⟨cfg, pix.map (resolve cfg.channels)⟩)

/-- R122, R123: an encode call on a legal input ends, with the header, at most 5 bytes a pixel, and the footer. -/
def Obligations.EncodeCallEndsWithinBounds : Prop :=
  ∀ (cfg : ImageConfig) (pix : List Pixel), LegalInput cfg pix →
    ∃ ops, encodeCall cfg pix = some (headerBytes cfg ++ ops ++ footer) ∧ ops.length ≤ 5 * cfg.pixelCount

/-- R151: a decode call on any byte sequence ends, with an image or with an offset not past the end of the stream. -/
def Obligations.DecodeCallAlwaysEnds : Prop :=
  ∀ bytes : List Byte, ∃ r, decodeCall bytes = some r ∧ ∀ o, r = .error o → o ≤ bytes.length

/-- R150: the decoder checks no pixel count: the same bytes after any two legal headers give the same pixels, or the same
offset, whatever `WIDTH × HEIGHT` is; and one RUN op decodes under any of them. That no count is checked is the spec's
decision D9 (DEDUCED, log 22). -/
def Obligations.PixelCountIsNotChecked : Prop :=
  (∀ (cfg cfg' : ImageConfig) (bytes : List Byte), legalChannels cfg.channels = true →
      legalColorspace cfg.colorspace = true → legalChannels cfg'.channels = true →
      legalColorspace cfg'.colorspace = true →
      decodeCall (headerBytes cfg' ++ bytes) =
        (decodeCall (headerBytes cfg ++ bytes)).map fun r =>
          match r with
          | .ok image => .ok ⟨cfg', image.pixels⟩
          | .error o => .error o) ∧
    ∀ (cfg : ImageConfig) (len : Nat), legalChannels cfg.channels = true → legalColorspace cfg.colorspace = true →
      (Instr.run len).wf = true →
      decodeCall (headerBytes cfg ++ encode (.run len) ++ footer) =
        some (.ok ⟨cfg, List.replicate len ⟨0, 0, 0, 255⟩⟩)

/-- R125: the streaming build, fed the resolved pixels one at a time, emits the op-code bytes of the encode call. R125
probes the cache first, so this is about the order INDEX_FIRST (D4; DESIGN CHOICE, log 11). -/
def Obligations.StreamingBuildEmitsTheSameBytes : Prop :=
  ∀ (cfg : ImageConfig) (pix : List Pixel), LegalInput cfg pix →
    encodeCall cfg pix =
      some (headerBytes cfg ++
        (Streaming.feed ⟨Config.prevInit, cacheReset, 0, []⟩ (pix.map (resolve cfg.channels))).out ++ footer)

/-- R3, D1: a bare core gives the framed calls' results without the header: the same image, the same bytes, and error
offsets smaller by 14 (the bare core's two calls are the model's form of what D1 allows; DESIGN CHOICE, log 19). -/
def Obligations.BareCoreAgreesWithTheFramed : Prop :=
  ∀ cfg : ImageConfig, legalChannels cfg.channels = true → legalColorspace cfg.colorspace = true →
    (∀ bytes : List Byte, bytes ≠ [] →
      decodeCall (headerBytes cfg ++ bytes) =
        (bareDecodeCall cfg bytes).map fun r =>
          match r with
          | .ok image => .ok image
          | .error o => .error (o + 14)) ∧
    (∀ pix : List Pixel, encodeCall cfg pix = (bareEncodeCall cfg pix).map fun bytes => headerBytes cfg ++ bytes)

/-- The invariant of both engines (R13, R14, R88, R89, R148 and the rest of `State.Inv`) is kept by every step. -/
def Obligations.StepKeepsTheInvariant : Prop :=
  ∀ s t : State, s.Inv → step s = .next t → t.Inv

/-- R23: reset meets the invariant, and holds the values R23 gives at the start of a call: `PREV`, every slot, the counters,
the empty outputs and the status. That the machine's reset is the start of a decode call on no bytes, and that the encoder
holds R23's values before its first call, which R23 calls unspecified, is the model's choice (DESIGN CHOICE, log 4); that
the encoder has as many pixels as its configuration says rests on the zero configuration (DESIGN CHOICE, log 5). -/
def Obligations.ResetMeetsTheInvariant : Prop :=
  State.reset.Inv ∧
    State.reset.dec.prev = ⟨0, 0, 0, 255⟩ ∧ State.reset.enc.prev = ⟨0, 0, 0, 255⟩ ∧
    (∀ i : Slot, cacheRead State.reset.dec.cache i = ⟨0, 0, 0, 0⟩ ∧ cacheRead State.reset.enc.cache i = ⟨0, 0, 0, 0⟩) ∧
    State.reset.dec.off = 0 ∧ State.reset.enc.pos = 0 ∧ State.reset.dec.img = [] ∧ State.reset.enc.out = [] ∧
    State.reset.dec.status = .running
end

