-- ==== Sys2Proof/Laws/State.lean ====
section
/-! SUPPORT. What each update of an engine leaves in each field, so that no proof unfolds a record update. -/

namespace Sys2Proof.Machine

section
variable (d : Dec) (o : Nat) (p : Pixel) (k n : Nat)

@[simp] theorem Dec.raise_prev : (d.raise o).prev = d.prev := rfl
@[simp] theorem Dec.raise_cache : (d.raise o).cache = d.cache := rfl
@[simp] theorem Dec.raise_off : (d.raise o).off = d.off := rfl
@[simp] theorem Dec.raise_img : (d.raise o).img = d.img := rfl
@[simp] theorem Dec.raise_status : (d.raise o).status = .failed := rfl
@[simp] theorem Dec.raise_errOffset : (d.raise o).errOffset = o := rfl
@[simp] theorem Dec.raise_stream : (d.raise o).stream = d.stream := rfl
@[simp] theorem Dec.raise_cfg : (d.raise o).cfg = d.cfg := rfl
@[simp] theorem Dec.raise_headerOk : (d.raise o).headerOk = d.headerOk := rfl

@[simp] theorem Dec.retire_prev : (d.retire p k n).prev = p := rfl
@[simp] theorem Dec.retire_cache : (d.retire p k n).cache = cacheUpdate d.cache p := rfl
@[simp] theorem Dec.retire_off : (d.retire p k n).off = d.off + n := rfl
@[simp] theorem Dec.retire_img : (d.retire p k n).img = d.img ++ List.replicate k p := rfl
@[simp] theorem Dec.retire_status : (d.retire p k n).status = d.status := rfl
@[simp] theorem Dec.retire_errOffset : (d.retire p k n).errOffset = d.errOffset := rfl
@[simp] theorem Dec.retire_stream : (d.retire p k n).stream = d.stream := rfl
@[simp] theorem Dec.retire_cfg : (d.retire p k n).cfg = d.cfg := rfl
@[simp] theorem Dec.retire_headerOk : (d.retire p k n).headerOk = d.headerOk := rfl

@[simp] theorem Dec.acceptHeader_prev : d.acceptHeader.prev = Config.prevInit := rfl
@[simp] theorem Dec.acceptHeader_cache : d.acceptHeader.cache = cacheReset := rfl
@[simp] theorem Dec.acceptHeader_off : d.acceptHeader.off = Config.base := rfl
@[simp] theorem Dec.acceptHeader_img : d.acceptHeader.img = [] := rfl
@[simp] theorem Dec.acceptHeader_status : d.acceptHeader.status = .running := rfl
@[simp] theorem Dec.acceptHeader_stream : d.acceptHeader.stream = d.stream := rfl
@[simp] theorem Dec.acceptHeader_cfg : d.acceptHeader.cfg = parseConfig d.stream := rfl
@[simp] theorem Dec.acceptHeader_headerOk : d.acceptHeader.headerOk = true := rfl
end

section
variable (bytes : List Byte)

@[simp] theorem Dec.start_prev : (Dec.start bytes).prev = Config.prevInit := rfl
@[simp] theorem Dec.start_cache : (Dec.start bytes).cache = cacheReset := rfl
@[simp] theorem Dec.start_off : (Dec.start bytes).off = 0 := rfl
@[simp] theorem Dec.start_img : (Dec.start bytes).img = [] := rfl
@[simp] theorem Dec.start_status : (Dec.start bytes).status = .running := rfl
@[simp] theorem Dec.start_stream : (Dec.start bytes).stream = bytes := rfl
@[simp] theorem Dec.start_headerOk : (Dec.start bytes).headerOk = false := rfl
end

section
variable (e : Enc) (i : Instr) (p : Pixel) (cfg : ImageConfig) (pix : List Pixel)

@[simp] theorem Enc.start_prev : (Enc.start cfg pix).prev = Config.prevInit := rfl
@[simp] theorem Enc.start_cache : (Enc.start cfg pix).cache = cacheReset := rfl
@[simp] theorem Enc.start_pos : (Enc.start cfg pix).pos = 0 := rfl
@[simp] theorem Enc.start_out : (Enc.start cfg pix).out = [] := rfl
@[simp] theorem Enc.start_pix : (Enc.start cfg pix).pix = pix := rfl
@[simp] theorem Enc.start_cfg : (Enc.start cfg pix).cfg = cfg := rfl
@[simp] theorem Enc.start_phase : (Enc.start cfg pix).phase = .header := rfl

@[simp] theorem Enc.retire_prev : (e.retire i p).prev = p := rfl
@[simp] theorem Enc.retire_cache : (e.retire i p).cache = cacheUpdate e.cache p := rfl
@[simp] theorem Enc.retire_pos : (e.retire i p).pos = e.pos + i.pixels := rfl
@[simp] theorem Enc.retire_out : (e.retire i p).out = e.out ++ encode i := rfl
@[simp] theorem Enc.retire_pix : (e.retire i p).pix = e.pix := rfl
@[simp] theorem Enc.retire_cfg : (e.retire i p).cfg = e.cfg := rfl
@[simp] theorem Enc.retire_phase : (e.retire i p).phase = e.phase := rfl

@[simp] theorem Enc.refuse_prev (b : Breach) : (e.refuse b).prev = e.prev := rfl
@[simp] theorem Enc.refuse_cache (b : Breach) : (e.refuse b).cache = e.cache := rfl
@[simp] theorem Enc.refuse_pos (b : Breach) : (e.refuse b).pos = e.pos := rfl
@[simp] theorem Enc.refuse_out (b : Breach) : (e.refuse b).out = e.out := rfl
@[simp] theorem Enc.refuse_pix (b : Breach) : (e.refuse b).pix = e.pix := rfl
@[simp] theorem Enc.refuse_cfg (b : Breach) : (e.refuse b).cfg = e.cfg := rfl
@[simp] theorem Enc.refuse_phase (b : Breach) : (e.refuse b).phase = .refused b := rfl

@[simp] theorem Enc.emitHeader_prev : e.emitHeader.prev = e.prev := rfl
@[simp] theorem Enc.emitHeader_cache : e.emitHeader.cache = e.cache := rfl
@[simp] theorem Enc.emitHeader_pos : e.emitHeader.pos = e.pos := rfl
@[simp] theorem Enc.emitHeader_out : e.emitHeader.out = e.out ++ headerBytes e.cfg := rfl
@[simp] theorem Enc.emitHeader_pix : e.emitHeader.pix = e.pix := rfl
@[simp] theorem Enc.emitHeader_cfg : e.emitHeader.cfg = e.cfg := rfl
@[simp] theorem Enc.emitHeader_phase : e.emitHeader.phase = .ops := rfl

@[simp] theorem Enc.emitFooter_prev : e.emitFooter.prev = e.prev := rfl
@[simp] theorem Enc.emitFooter_cache : e.emitFooter.cache = e.cache := rfl
@[simp] theorem Enc.emitFooter_pos : e.emitFooter.pos = e.pos := rfl
@[simp] theorem Enc.emitFooter_out : e.emitFooter.out = e.out ++ footer := rfl
@[simp] theorem Enc.emitFooter_pix : e.emitFooter.pix = e.pix := rfl
@[simp] theorem Enc.emitFooter_cfg : e.emitFooter.cfg = e.cfg := rfl
@[simp] theorem Enc.emitFooter_phase : e.emitFooter.phase = .done := rfl
end

section
variable (s : State) (o : Nat)

@[simp] theorem raiseDecodeError_dec : (raiseDecodeError o s).dec = s.dec.raise o := rfl
@[simp] theorem raiseDecodeError_enc : (raiseDecodeError o s).enc = s.enc := rfl
@[simp] theorem raiseDecodeError_inputs : (raiseDecodeError o s).inputs = s.inputs := rfl
@[simp] theorem startDecode_dec (bytes : List Byte) : (startDecode bytes s).dec = Dec.start bytes := rfl
@[simp] theorem startDecode_enc (bytes : List Byte) : (startDecode bytes s).enc = s.enc := rfl
@[simp] theorem startDecode_inputs (bytes : List Byte) : (startDecode bytes s).inputs = s.inputs := rfl
@[simp] theorem withFetchWord_enc (nbits w : Nat) : (s.withFetchWord nbits w).enc = s.enc := rfl
@[simp] theorem withFetchWord_inputs (nbits w : Nat) : (s.withFetchWord nbits w).inputs = [] := rfl
end

end Sys2Proof.Machine
end

