-- ==== Sys2Proof/Laws/Cache.lean ====
section
/-! SUPPORT. The laws of the colour cache: what a slot reads after an update, and that updates keep R89. The cache's
canonical form is its type: equal caches are those that read equal in every slot. -/

namespace Sys2Proof.Machine

/-- R87, R92: an update changes one slot, the pixel's own. -/
theorem cacheRead_cacheUpdate (c : Cache) (p : Pixel) (i : Slot) :
    cacheRead (cacheUpdate c p) i = if i = pixelHash p then p else cacheRead c i := by
  unfold cacheRead cacheUpdate
  simp only [Vector.get_eq_getElem, Vector.getElem_set, Fin.ext_iff, eq_comm]

@[simp] theorem cacheRead_cacheUpdate_self (c : Cache) (p : Pixel) : cacheRead (cacheUpdate c p) (pixelHash p) = p := by
  simp [cacheRead_cacheUpdate]

@[simp] theorem cacheRead_cacheReset (i : Slot) : cacheRead cacheReset i = Config.cacheInit := by
  simp [cacheRead, cacheReset, Vector.get_eq_getElem]

/-- Caches that read equal everywhere are equal. -/
theorem cache_ext (c c' : Cache) (h : ∀ i, cacheRead c i = cacheRead c' i) : c = c' := by
  apply Vector.ext
  intro i hi
  exact h ⟨i, hi⟩

theorem slotSound_cacheReset : SlotSound cacheReset := fun i => .inl (cacheRead_cacheReset i)

theorem slotSound_cacheUpdate (c : Cache) (p : Pixel) (h : SlotSound c) : SlotSound (cacheUpdate c p) := by
  intro i
  by_cases hi : i = pixelHash p
  · subst hi; simp
  · simpa [cacheRead_cacheUpdate, hi] using h i

theorem holdsPrev_cacheUpdate (c : Cache) (p : Pixel) : HoldsPrev p (cacheUpdate c p) := by
  simp [HoldsPrev]

@[simp] theorem cacheProbe_fst (c : Cache) (p : Pixel) : (cacheProbe c p).1 = pixelHash p := rfl

@[simp] theorem cacheProbe_hit (c : Cache) (p : Pixel) : (cacheProbe c p).2 = true ↔ cacheRead c (pixelHash p) = p := by
  simp [cacheProbe, isHit]

end Sys2Proof.Machine
end

