-- ==== Sys2Proof/Laws/Ops.lean ====
section
/-! SUPPORT. Everything the shared decoder operation, the header step and the starts of calls can do, said once. -/

namespace Sys2Proof.Machine

/-- A short read raises at the op's first byte; otherwise the op completes. There is no third case. -/
theorem decodeOp_cases (n k : Nat) (p : Dec → Pixel) (s : State) :
    (s.dec.rem < n ∧ decodeOp n k p s = .next (raiseDecodeError s.dec.off s)) ∨
      (n ≤ s.dec.rem ∧ decodeOp n k p s = .next { s with dec := s.dec.retire (p s.dec) k n }) := by
  unfold decodeOp
  split
  · exact .inl ⟨‹_›, rfl⟩
  · exact .inr ⟨Nat.le_of_not_lt ‹_›, rfl⟩

theorem decodeOp_short {n k : Nat} {p : Dec → Pixel} {s : State} (h : s.dec.rem < n) :
    decodeOp n k p s = .next (raiseDecodeError s.dec.off s) := if_pos h

theorem decodeOp_complete {n k : Nat} {p : Dec → Pixel} {s : State} (h : n ≤ s.dec.rem) :
    decodeOp n k p s = .next { s with dec := s.dec.retire (p s.dec) k n } := if_neg (Nat.not_lt.mpr h)

/-- The completed op in the terms the statements use. -/
theorem opEffect_retire (s : State) (p : Pixel) (k n : Nat) :
    OpEffect s { s with dec := s.dec.retire p k n } p k n where
  img := rfl
  prev := rfl
  off := rfl
  slots := cacheRead_cacheUpdate s.dec.cache p
  status := rfl
  errOffset := rfl
  stream := rfl
  cfg := rfl
  headerOk := rfl
  enc := rfl
  inputs := rfl

/-- The encoder's op-code step in the terms the statements use; what follows in the host's inputs is free. -/
theorem encOpEffect_opStep (s : State) (raw : Pixel) (more : List Input) :
    EncOpEffect s { s with enc := s.enc.opStep raw, inputs := more }
      (s.enc.choose (resolve s.enc.cfg.channels raw)) (resolve s.enc.cfg.channels raw) where
  out := rfl
  slots := cacheRead_cacheUpdate s.enc.cache _
  prev := rfl
  pos := rfl
  pix := rfl
  cfg := rfl
  phase := rfl
  dec := rfl

/-- The raised exception in the terms the statements use. -/
theorem raised_raiseDecodeError (s : State) (o : Nat) : Raised s (raiseDecodeError o s) o where
  status := rfl
  errOffset := rfl
  result := rfl
  stream := rfl
  enc := rfl
  inputs := rfl

theorem dec_rest_length (d : Dec) : d.rest.length = d.rem := by simp [Dec.rest, Dec.rem]

/-- The header step raises the first failing check's offset or accepts. -/
theorem headerStep_cases (s : State) :
    (∃ o, headerError s.dec.stream = some o ∧ headerStep s = .next (raiseDecodeError o s)) ∨
      (headerError s.dec.stream = none ∧ headerStep s = .next { s with dec := s.dec.acceptHeader }) := by
  unfold headerStep
  cases h : headerError s.dec.stream with
  | some o => exact .inl ⟨o, rfl, rfl⟩
  | none => exact .inr ⟨rfl, rfl⟩

/-- No breach exactly on a legal input. -/
theorem breach_eq_none_iff (cfg : ImageConfig) (pix : List Pixel) : breach cfg pix = none ↔ LegalInput cfg pix := by
  unfold breach LegalInput
  split
  · simp_all
  · split <;> simp_all

/-- An encode call is started exactly on a legal input. -/
theorem startEncode_legal {cfg : ImageConfig} {pix : List Pixel} (h : LegalInput cfg pix) (s : State) :
    startEncode cfg pix s = { s with enc := Enc.start cfg pix } := by
  simp [startEncode, (breach_eq_none_iff cfg pix).2 h]

/-- The start of an encode call with a breach leaves all but the encoder's phase. -/
theorem startEncode_breach {cfg : ImageConfig} {pix : List Pixel} {b : Breach} (h : breach cfg pix = some b)
    (s : State) : startEncode cfg pix s = { s with enc := s.enc.refuse b } := by
  simp [startEncode, h]

/-- Everything an encoder step can do: the header, one op-code on the next record, the footer, or finding that a record
is missing. -/
theorem encStep_cases {s t : State} (h : encStep s = .next t) :
    (s.enc.phase = .header ∧ t = { s with enc := s.enc.emitHeader }) ∨
      (s.enc.phase = .ops ∧ s.enc.pos < s.enc.n ∧
        ∃ raw, s.enc.pix[s.enc.pos]? = some raw ∧ t = { s with enc := s.enc.opStep raw }) ∨
      (s.enc.phase = .ops ∧ s.enc.n ≤ s.enc.pos ∧ t = { s with enc := s.enc.emitFooter }) ∨
      (s.enc.phase = .ops ∧ s.enc.pos < s.enc.n ∧ s.enc.pix[s.enc.pos]? = none ∧
        t = { s with enc := s.enc.refuse .pixelCount }) := by
  unfold encStep at h
  split at h
  · cases h
  · cases h; exact .inl ⟨‹_›, rfl⟩
  · split at h
    · split at h
      · cases h; exact .inr (.inl ⟨‹_›, ‹_›, _, ‹_›, rfl⟩)
      · cases h; exact .inr (.inr (.inr ⟨‹_›, ‹_›, ‹_›, rfl⟩))
    · cases h; exact .inr (.inr (.inl ⟨‹_›, Nat.le_of_not_lt ‹_›, rfl⟩))
  · cases h
  · cases h

/-- When the decoder moves, the step is the decoder's, on what the host says after that. -/
theorem step_of_decMoves {s : State} {more : List Input} (h : DecMoves s more) :
    step s = decStep { s with inputs := more } := by
  obtain ⟨hr, ⟨hi, rfl⟩ | hi⟩ := h
  · have hs : ({ s with inputs := [] } : State) = s := by cases s; simp_all
    simp [step, hi, moveBusy, Dec.busy, hr, hs]
  · simp [step, hi, takeInput, Dec.busy, hr]

/-- When the encoder moves and its call is in progress, the step is the encoder's, on what the host says after that. -/
theorem step_of_encMoves {s : State} {more : List Input} (h : EncMoves s more) (hb : s.enc.busy = true) :
    step s = encStep { s with inputs := more } := by
  obtain ⟨hi, rfl, hd⟩ | hi := h
  · have hs : ({ s with inputs := [] } : State) = s := by cases s; simp_all
    simp [step, hi, moveBusy, Dec.busy, hd, hs]
  · simp [step, hi, takeInput, hb]

end Sys2Proof.Machine
end

