-- ==== Sys2Proof/Laws/PerInstr.lean ====
section
/-! SUPPORT. Statements made per instruction: the encoder of every instruction makes as many bytes as R51 says. -/

namespace Sys2Proof.Laws.EncodeLength

/-- R51: the encoding of `i` has `i.length` bytes, whatever its operands. -/
def Statement (i : Instr) : Prop := (encode i).length = i.length

theorem rgba (r g b a : Byte) : Statement (.rgba r g b a) := rfl
theorem rgb (r g b : Byte) : Statement (.rgb r g b) := rfl
theorem index (idx : Slot) : Statement (.index idx) := rfl
theorem diff (dr dg db : Int) : Statement (.diff dr dg db) := rfl
theorem luma (dg drg dbg : Int) : Statement (.luma dg drg dbg) := rfl
theorem run (len : Nat) : Statement (.run len) := rfl
theorem endMark : Statement .endMark := rfl

end Sys2Proof.Laws.EncodeLength
end

