-- ==== Sys2Proof/Tests/Slice0.lean ====
section
/-! SUPPORT. Tests. The expected results are the spec's: bytes written out from 30_encoding.md's formats, and the worked
examples and vectors of the rules and of 95_test_vectors.md, named at each group. Then one witness for the hypotheses
of each statement. -/

namespace Sys2Proof.Machine.Tests

/-! ## WellFormed refuses an ill-formed term for each check -/

theorem test_wf_diff_red_too_big : (Instr.diff 2 0 0).wf = false := by decide
theorem test_wf_diff_green_too_small : (Instr.diff 0 (-3) 0).wf = false := by decide
theorem test_wf_diff_blue_too_big : (Instr.diff 0 0 2).wf = false := by decide
theorem test_wf_luma_green_too_big : (Instr.luma 32 0 0).wf = false := by decide
theorem test_wf_luma_red_too_small : (Instr.luma 0 (-9) 0).wf = false := by decide
theorem test_wf_luma_blue_too_big : (Instr.luma 0 0 8).wf = false := by decide
theorem test_wf_run_empty : (Instr.run 0).wf = false := by decide
theorem test_wf_run_too_long : (Instr.run 63).wf = false := by decide
theorem test_wf_ends_included :
    (Instr.diff (-2) 1 (-2)).wf && (Instr.luma (-32) 7 (-8)).wf && (Instr.luma 31 (-8) 7).wf && (Instr.run 62).wf := by
  decide

/-! ## Decoding words written out from the formats (R53 to R58, vectors 2.3) -/

theorem test_decode_index : decode [0b00110101, 9] = .ok (.index 53, [9]) := by decide
theorem test_decode_diff : decode [0b01110110, 9] = .ok (.diff 1 (-1) 0, [9]) := by decide
theorem test_decode_luma : decode [0b10011111, 0b00001111, 9] = .ok (.luma (-1) (-8) 7, [9]) := by decide
theorem test_decode_luma_payload_is_no_tag : decode [0b10000000, 0xFE] = .ok (.luma (-32) 7 6, []) := by decide
theorem test_decode_run : decode [0b11111101, 9] = .ok (.run 62, [9]) := by decide
theorem test_decode_rgb : decode [0b11111110, 0xFF, 0xFE, 0xFD, 9] = .ok (.rgb 255 254 253, [9]) := by decide
theorem test_decode_rgba : decode [0b11111111, 1, 2, 3, 4, 9] = .ok (.rgba 1 2 3 4, [9]) := by decide
theorem test_decode_end : decode [0, 0, 0, 0, 0, 0, 0, 1] = .ok (.endMark, []) := by decide
theorem test_decode_end_not_at_end : decode [0, 0, 0, 0, 0, 0, 0, 1, 0] = .ok (.index 0, [0, 0, 0, 0, 0, 0, 1, 0]) := by
  decide
theorem test_decode_nothing : decode [] = .error .noByte := by decide
theorem test_decode_short_luma : decode [0x80] = .error (.shortPayload .luma) := by decide
theorem test_decode_short_rgba : decode [0xFF, 1, 2, 3] = .error (.shortPayload .rgba) := by decide
theorem test_kind_boundaries :
    [0x3F, 0x40, 0x7F, 0x80, 0xBF, 0xC0, 0xFD, 0xFE, 0xFF].map kindOf =
      [.index, .diff, .diff, .luma, .luma, .run, .run, .rgb, .rgba] := by decide

/-! ## Encoding (R64's table, vectors 2.3) -/

theorem test_encode_index : encode (.index 63) = [0x3F] := by decide
theorem test_encode_diff : encode (.diff 1 (-2) 1) = [0x73] := by decide
theorem test_encode_luma : encode (.luma 2 (-3) (-3)) = [0xA2, 0x55] := by decide
theorem test_encode_run : encode (.run 8) = [0xC7] := by decide

/-! ## Arithmetic and the hash (R70 to R78, vectors 2.1 and 2.2) -/

theorem test_add8s : [add8s 0 (-1), add8s 1 (-2), add8s 255 1, add8s 250 38, add8s 5 (-40)] = [255, 255, 0, 32, 221] := by
  decide
theorem test_delta : [delta 0 255, delta 255 0, delta 128 0, delta 72 200, delta 1 254] = [1, -1, -128, -128, 3] := by
  decide
theorem test_lumaDiff : [lumaDiff 12 10, lumaDiff 5 10, lumaDiff (-128) 0, lumaDiff 0 (-128)] = [2, -5, -128, -128] := by
  decide
theorem test_fitsLuma_ends :
    fitsLuma (-40) (-32) (-40) && fitsLuma 38 31 38 && !fitsLuma 32 32 32 && !fitsLuma 8 0 0 && !fitsLuma (-9) 0 0 := by
  decide
theorem test_hash :
    [pixelHash ⟨0, 0, 0, 255⟩, pixelHash ⟨1, 2, 3, 4⟩, pixelHash ⟨10, 10, 10, 255⟩, pixelHash ⟨64, 0, 0, 0⟩, pixelHash ⟨200, 100, 50, 128⟩,
      pixelHash ⟨247, 255, 6, 255⟩] = [53, 14, 11, 0, 42, 63] := by decide

/-! ## One decoder step (vectors 2.6)

`at` is a machine at an op boundary: reset, with the given `PREV`, and the given bytes up to the end of the stream. -/

def atOp (prev : Pixel) (bytes : List Byte) : State :=
  { State.reset with dec := { State.reset.dec.load bytes with prev := prev } }

/-- `PREV`, how many pixels were appended, `off`, and whether `PREV` stands in its slot, after one step. -/
def seen (a : Answer) : Option (Pixel × Nat × Nat × Bool) :=
  match a with
  | .next t =>
    some (t.dec.prev, t.dec.img.length, t.dec.off, decide (cacheRead t.dec.cache (pixelHash t.dec.prev) = t.dec.prev))
  | _ => none

/-- The status and the error offset after one step. -/
def ended (a : Answer) : Option (Status × Nat) :=
  match a with
  | .next t => some (t.dec.status, t.dec.errOffset)
  | _ => none

def gray10 : Pixel := ⟨10, 10, 10, 255⟩

set_option maxRecDepth 4000

theorem test_step_rgba : seen (step (atOp ⟨9, 9, 9, 9⟩ ([0xFF, 1, 2, 3, 4] ++ footer))) = some (⟨1, 2, 3, 4⟩, 1, 19, true) := by
  decide
theorem test_step_rgb : seen (step (atOp ⟨9, 9, 9, 7⟩ ([0xFE, 0x64, 0, 0] ++ footer))) = some (⟨100, 0, 0, 7⟩, 1, 18, true) := by
  decide
theorem test_step_diff : seen (step (atOp gray10 ([0x76] ++ footer))) = some (⟨11, 9, 10, 255⟩, 1, 15, true) := by decide
theorem test_step_diff_wraps : seen (step (atOp ⟨1, 1, 1, 9⟩ ([0x40] ++ footer))) = some (⟨255, 255, 255, 9⟩, 1, 15, true) := by
  decide
theorem test_step_luma : seen (step (atOp ⟨0, 0, 0, 255⟩ ([0x9F, 0x0F] ++ footer))) = some (⟨247, 255, 6, 255⟩, 1, 16, true) := by
  decide
theorem test_step_luma_wraps :
    seen (step (atOp ⟨250, 250, 250, 255⟩ ([0xBF, 0xFF] ++ footer))) = some (⟨32, 25, 32, 255⟩, 1, 16, true) := by decide
theorem test_step_run : seen (step (atOp ⟨1, 2, 3, 4⟩ ([0xFD] ++ footer))) = some (⟨1, 2, 3, 4⟩, 62, 15, true) := by decide
theorem test_step_index_unwritten : seen (step (atOp gray10 ([0x25] ++ footer))) = some (⟨0, 0, 0, 0⟩, 1, 15, true) := by
  decide

/-- Slot 11 holds `gray10`. -/
def withSlot11 : State :=
  let s := atOp ⟨1, 2, 3, 4⟩ ([0x0B] ++ footer)
  { s with dec := { s.dec with cache := cacheUpdate s.dec.cache gray10 } }

theorem test_step_index_hit : seen (step withSlot11) = some (gray10, 1, 15, true) := by decide

theorem test_step_end : ended (step (atOp gray10 footer)) = some (.done, 0) := by decide
theorem test_step_truncated : ended (step (atOp gray10 [0, 0, 0, 0, 0, 0, 0])) = some (.failed, 14) := by decide
theorem test_step_eight_zeros_is_index : seen (step (atOp gray10 [0, 0, 0, 0, 0, 0, 0, 0])) = some (⟨0, 0, 0, 0⟩, 1, 15, true) := by
  decide
theorem test_short_rgba_raises : ended (exec (.rgba 1 2 3 4) (atOp gray10 [0xFF, 1, 2, 3])) = some (.failed, 14) := by
  decide

/-- The table's word of each row, placed after reset, is decoded and run (END by its big-endian number). -/
theorem test_table_words :
    [decodeTableWord 40 0xFF, decodeTableWord 32 0xFE, decodeTableWord 8 0, decodeTableWord 8 0x40,
      decodeTableWord 16 0x80, decodeTableWord 8 0xC0, decodeTableWord 64 1] =
    [some (.rgba 0 0 0 0), some (.rgb 0 0 0), some (.index 0), some (.diff (-2) (-2) (-2)), some (.luma (-32) (-8) (-8)),
      some (.run 1), some .endMark] := by decide
theorem test_fetch_word_runs : seen (step (State.reset.withFetchWord 16 0x88AA)) = some (gray10, 1, 16, true) := by decide

/-! ## The header (R99, R100, vectors V-S2 and 2.7) -/

def onStream (bytes : List Byte) : State := { State.reset with dec := Dec.start bytes }

/-- `HDR(1,1,ch,cs)`. -/
def hdr (ch cs : Byte) : List Byte := [0x71, 0x6F, 0x69, 0x66, 0, 0, 0, 1, 0, 0, 0, 1, ch, cs]

theorem test_header_bytes : headerBytes ⟨1, 2, 3, 0⟩ = [0x71, 0x6F, 0x69, 0x66, 0, 0, 0, 1, 0, 0, 0, 2, 3, 0] := by decide
theorem test_header_empty : ended (step (onStream [])) = some (.failed, 0) := by decide
theorem test_header_bad_magic : ended (step (onStream [0x51, 0x4F, 0x49, 0x46, 0, 0])) = some (.failed, 0) := by decide
theorem test_header_magic_only : ended (step (onStream [0x71, 0x6F, 0x69, 0x66])) = some (.failed, 3) := by decide
theorem test_header_fourteen : ended (step (onStream (hdr 5 2))) = some (.failed, 13) := by decide
theorem test_header_channels_first : ended (step (onStream (hdr 5 2 ++ [0]))) = some (.failed, 12) := by decide
theorem test_header_colorspace : ended (step (onStream (hdr 4 2 ++ footer))) = some (.failed, 13) := by decide

/-- The configuration and `off` after one step. -/
def configSeen (a : Answer) : Option (ImageConfig × Nat) :=
  match a with
  | .next t => some (t.dec.cfg, t.dec.off)
  | _ => none

theorem test_header_accepted :
    configSeen (step (onStream ([0x71, 0x6F, 0x69, 0x66, 0, 0, 1, 2, 3, 0, 0, 4, 3, 1] ++ footer))) =
      some (⟨258, 0x03000004, 3, 1⟩, 14) := by decide

/-! ## One encoder step (vectors 2.5, programs P1, P3) -/

/-- An encoder at its first op step with `PREV` given, the configuration's channels 4 and one row of pixels. -/
def atPixel (prev : Pixel) (pix : List Pixel) : State :=
  { State.reset with
    dec := { State.reset.dec with status := .done }
    enc := { Enc.start ⟨BitVec.ofNat 32 pix.length, 1, 4, 0⟩ pix with prev := prev, phase := .ops } }

/-- The bytes emitted and `pos` after one step. -/
def emitted (a : Answer) : Option (List Byte × Nat) :=
  match a with
  | .next t => some (t.enc.out, t.enc.pos)
  | _ => none

theorem test_enc_diff : emitted (step (atPixel ⟨255, 0, 128, 255⟩ [⟨0, 254, 129, 255⟩])) = some ([0x73], 1) := by decide
theorem test_enc_diff_before_luma :
    emitted (step (atPixel ⟨100, 100, 100, 255⟩ [⟨101, 101, 101, 255⟩])) = some ([0x7F], 1) := by decide
theorem test_enc_luma : emitted (step (atPixel ⟨100, 100, 100, 255⟩ [⟨60, 68, 60, 255⟩])) = some ([0x80, 0], 1) := by decide
theorem test_enc_luma_channels :
    emitted (step (atPixel ⟨100, 100, 100, 255⟩ [⟨107, 100, 92, 255⟩])) = some ([0xA0, 0xF0], 1) := by decide
theorem test_enc_rgb : emitted (step (atPixel ⟨100, 100, 100, 255⟩ [⟨108, 100, 100, 255⟩])) = some ([0xFE, 0x6C, 0x64, 0x64], 1) := by
  decide
theorem test_enc_rgba : emitted (step (atPixel ⟨9, 9, 9, 7⟩ [⟨9, 9, 9, 8⟩])) = some ([0xFF, 9, 9, 9, 8], 1) := by decide
theorem test_enc_index_reset_slot : emitted (step (atPixel ⟨0, 0, 0, 255⟩ [⟨0, 0, 0, 0⟩])) = some ([0], 1) := by decide
theorem test_enc_run_stops_at_other :
    emitted (step (atPixel ⟨0, 0, 0, 255⟩ [⟨0, 0, 0, 255⟩, ⟨0, 0, 0, 255⟩, ⟨1, 1, 1, 255⟩])) = some ([0xC1], 2) := by
  decide
theorem test_enc_run_capped :
    emitted (step (atPixel ⟨0, 0, 0, 255⟩ (List.replicate 70 ⟨0, 0, 0, 255⟩))) = some ([0xFD], 62) := by decide
theorem test_enc_footer : emitted (step (atPixel gray10 [])) = some (footer, 0) := by decide
theorem test_enc_alpha_resolved : resolve 3 ⟨10, 10, 10, 77⟩ = gray10 ∧ resolve 4 ⟨10, 10, 10, 77⟩ = ⟨10, 10, 10, 77⟩ := by
  decide
theorem test_streaming_run_then_literal :
    (Streaming.feed ⟨Config.prevInit, cacheReset, 0, []⟩ [⟨0, 0, 0, 255⟩, ⟨0, 0, 0, 255⟩, ⟨100, 0, 0, 255⟩]).out =
      [0xC1, 0xFE, 0x64, 0, 0] := by decide

/-! ## Starting calls (R184) -/

theorem test_encode_count_refused : (startEncode ⟨2, 1, 4, 0⟩ [gray10] State.reset).enc.phase = .refused .pixelCount := by
  decide
theorem test_encode_channels_refused :
    (startEncode ⟨1, 1, 5, 0⟩ [gray10] State.reset).enc.phase = .refused .imageConfig := by decide
theorem test_encode_legal_starts : (startEncode ⟨1, 1, 3, 1⟩ [gray10] State.reset).enc.phase = .header := by decide

/-- A decode call at its last boundary, and a host that asks for an encode call with one pixel too few. -/
def brokenBesideDecode : State :=
  { atOp gray10 footer with inputs := [.startEncode ⟨2, 1, 4, 0⟩ [gray10]] }

/-- R40, R184: the broken call is refused and the decode call beside it goes on to DONE. -/
theorem test_broken_start_leaves_the_decoder :
    (match step brokenBesideDecode with
      | .next t => some (t.enc.phase, ended (step t))
      | _ => none) = some (.refused .pixelCount, some (.done, 0)) := by decide

/-! ## Witnesses: for each statement with hypotheses a concrete state and operands that meet them all -/

theorem witness_LumaTestNeedsNoWrap :
    (-128 : Int) ≤ 38 ∧ (38 : Int) ≤ 127 ∧ (-128 : Int) ≤ 31 ∧ (31 : Int) ≤ 127 := by decide
theorem witness_DeltaIsTheUniqueStep : (-128 : Int) ≤ -128 ∧ (-128 : Int) ≤ 127 ∧ add8s 200 (-128) = 72 := by decide
theorem witness_DecodeOfEncode :
    (Instr.index 0).wf = true ∧ Instr.index 0 ≠ .endMark ∧ encode (.index 0) ++ [0, 0, 0, 0, 0, 0, 0] ≠ footer := by decide
theorem witness_EncodeOfDecode : decode [0xBF, 0xFF, 7] = .ok (.luma 31 7 7, [7]) := by decide
theorem witness_EveryFirstByte : 4 ≤ [1, 2, 3, 4].length ∧ (0xFF : Byte) :: [1, 2, 3, 4] ≠ footer := by decide
theorem witness_PackedBytes :
    (Instr.diff (-2) 1 (-2)).wf = true ∧ (Instr.luma 31 7 (-8)).wf = true ∧ (Instr.run 62).wf = true := by decide
theorem witness_WrittenOutWords : 8 ≤ footer.length := by decide
theorem witness_HeaderOfConfig : legalChannels 3 = true ∧ legalColorspace 1 = true ∧ footer ≠ [] := by decide

theorem witness_Rgba :
    5 ≤ (atOp gray10 [0xFF, 1, 2, 3, 4]).dec.rem ∧ (atOp gray10 [0xFF, 1, 2, 3]).dec.rem < 5 := by decide
theorem witness_Rgb : 4 ≤ (atOp gray10 [0xFE, 1, 2, 3]).dec.rem ∧ (atOp gray10 [0xFE, 1, 2]).dec.rem < 4 := by decide
theorem witness_Index :
    (63 : Byte).toNat < 64 ∧ (63 : Byte) :: footer ≠ footer ∧ 1 ≤ (atOp gray10 [0x3F]).dec.rem := by decide
theorem witness_Diff : 64 ≤ (127 : Byte).toNat ∧ (127 : Byte).toNat < 128 ∧ 1 ≤ (atOp gray10 [0x7F]).dec.rem := by decide
theorem witness_Luma :
    128 ≤ (128 : Byte).toNat ∧ (191 : Byte).toNat < 192 ∧ 2 ≤ (atOp gray10 [0x80, 0]).dec.rem ∧
      (atOp gray10 [0x80]).dec.rem < 2 := by decide
theorem witness_Run : 192 ≤ (192 : Byte).toNat ∧ (253 : Byte).toNat < 254 ∧ 1 ≤ (atOp gray10 [0xFD]).dec.rem := by decide
theorem witness_ShortOp : Instr.rgb 1 2 3 ≠ .endMark ∧ (atOp gray10 [0xFE, 1, 2]).dec.rem < (Instr.rgb 1 2 3).length := by
  decide
theorem witness_IndexOfUnwritten :
    1 ≤ (atOp gray10 [0x25]).dec.rem ∧ cacheRead (atOp gray10 [0x25]).dec.cache 37 = ⟨0, 0, 0, 0⟩ := by decide
theorem witness_CacheHolds : Instr.run 3 ≠ .endMark ∧ (Instr.run 3).length ≤ (atOp gray10 [0xC2]).dec.rem := by decide
theorem witness_InstructionsTouch :
    ∃ t, exec (.run 3) (atOp gray10 [0xC2]) = .next t := ⟨_, rfl⟩

theorem witness_StepRuns :
    let s := atOp gray10 ([0xC2] ++ footer)
    s.dec.status = .running ∧ s.dec.headerOk = true ∧ decode s.dec.rest = .ok (.run 3, footer) ∧ 8 ≤ s.dec.rem ∧
      s.inputs = [] ∧ ({ s with inputs := [.turn .dec] } : State).inputs = .turn .dec :: [] := by decide
theorem witness_StepRuns_end :
    let s := atOp gray10 footer
    s.dec.status = .running ∧ s.dec.headerOk = true ∧ decode s.dec.rest = .ok (.endMark, []) := by decide
theorem witness_Truncated : AtOpBoundary (atOp gray10 []) [] ∧ (atOp gray10 []).dec.rest ≠ footer ∧ (atOp gray10 []).dec.rem < 8 := by
  refine ⟨⟨⟨rfl, .inl ⟨rfl, rfl⟩⟩, rfl⟩, ?_⟩; decide
theorem witness_Truncated_seven :
    AtOpBoundary (atOp gray10 [0, 0, 0, 0, 0, 0, 1]) [] ∧ (atOp gray10 [0, 0, 0, 0, 0, 0, 1]).dec.rem = 7 := by
  refine ⟨⟨⟨rfl, .inl ⟨rfl, rfl⟩⟩, rfl⟩, ?_⟩; decide
theorem witness_Truncated_eight :
    AtOpBoundary (atOp gray10 [0, 0, 0, 0, 0, 0, 0, 2]) [] ∧ (atOp gray10 [0, 0, 0, 0, 0, 0, 0, 2]).dec.rest ≠ footer ∧
      8 ≤ (atOp gray10 [0, 0, 0, 0, 0, 0, 0, 2]).dec.rem := by
  refine ⟨⟨⟨rfl, .inl ⟨rfl, rfl⟩⟩, rfl⟩, ?_⟩; decide
theorem witness_OnlyTheFooter : AtOpBoundary (atOp gray10 footer) [] ∧ (atOp gray10 footer).dec.rest = footer := by
  refine ⟨⟨⟨rfl, .inl ⟨rfl, rfl⟩⟩, rfl⟩, ?_⟩; decide
theorem witness_ChannelBlind :
    AtOpBoundary (atOp gray10 ([0xC2] ++ footer)) [] ∧ ∃ t, step (atOp gray10 ([0xC2] ++ footer)) = .next t :=
  ⟨⟨⟨rfl, .inl ⟨rfl, rfl⟩⟩, rfl⟩, _, rfl⟩

/-- The same on the decoder's turn in the host's list. -/
theorem witness_AtOpBoundary_turn :
    AtOpBoundary { atOp gray10 [] with inputs := [.turn .dec, .turn .enc] } [.turn .enc] :=
  ⟨⟨rfl, .inr rfl⟩, rfl⟩

theorem witness_DecMoves_header :
    DecMoves (onStream (hdr 5 2)) [] ∧ DecMoves { onStream (hdr 5 2) with inputs := [.turn .dec] } [] ∧
      (onStream (hdr 5 2)).dec.headerOk = false :=
  ⟨⟨rfl, .inl ⟨rfl, rfl⟩⟩, ⟨rfl, .inr rfl⟩, rfl⟩

theorem witness_HeaderChecks_magic :
    let s := onStream [0x71, 0x6F, 0x69]
    s.inputs = [] ∧ s.dec.status = .running ∧ s.dec.headerOk = false ∧ s.dec.stream.length < 4 := by decide
theorem witness_HeaderChecks_short :
    let s := onStream (hdr 5 2)
    s.dec.stream.take 4 = [0x71, 0x6F, 0x69, 0x66] ∧ s.dec.stream.length = 14 := by decide
theorem witness_HeaderChecks_channels :
    let s := onStream (hdr 5 2 ++ [0])
    s.dec.stream.take 4 = [0x71, 0x6F, 0x69, 0x66] ∧ s.dec.stream.length = 15 ∧ s.dec.stream[12]? ≠ some 3 ∧
      s.dec.stream[12]? ≠ some 4 := by decide
theorem witness_HeaderChecks_colorspace :
    let s := onStream (hdr 3 2 ++ [0])
    s.dec.stream.take 4 = [0x71, 0x6F, 0x69, 0x66] ∧ s.dec.stream.length = 15 ∧ s.dec.stream[12]? = some 3 ∧
      s.dec.stream[13]? ≠ some 0 ∧ s.dec.stream[13]? ≠ some 1 := by decide
theorem witness_AcceptedHeader :
    let s := onStream (hdr 4 1 ++ [0])
    s.inputs = [] ∧ s.dec.status = .running ∧ s.dec.headerOk = false ∧ headerError s.dec.stream = none := by decide

theorem witness_EndedDecodeCall :
    let s := atPixel gray10 [gray10]
    s.dec.status ≠ .running ∧ (∀ bytes more, s.inputs ≠ .startDecode bytes :: more) ∧ ∃ t, step s = .next t := by
  refine ⟨by decide, ?_, _, rfl⟩
  intro _ _ h
  cases h

/-- An encoder with `PREV` given and the reset cache, about to process one pixel. -/
def encAt (prev p : Pixel) : Enc := (atPixel prev [p]).enc

theorem witness_Selector_hit :
    let e := { encAt ⟨1, 2, 3, 4⟩ gray10 with cache := cacheUpdate cacheReset gray10 }
    cacheRead e.cache (pixelHash gray10) = gray10 := by decide
theorem witness_Selector_rgba :
    let p : Pixel := ⟨9, 9, 9, 8⟩
    let e := encAt ⟨9, 9, 9, 7⟩ p
    cacheRead e.cache (pixelHash p) ≠ p ∧ p.a ≠ e.prev.a := by decide
theorem witness_Selector_run :
    let p : Pixel := ⟨0, 0, 0, 255⟩
    let e := encAt ⟨0, 0, 0, 255⟩ p
    cacheRead e.cache (pixelHash p) ≠ p ∧ p = e.prev := by decide
theorem witness_Selector_diff :
    let p : Pixel := ⟨8, 11, 10, 255⟩
    let e := encAt gray10 p
    cacheRead e.cache (pixelHash p) ≠ p ∧ p.a = e.prev.a ∧ p ≠ e.prev ∧ delta p.r e.prev.r = -2 ∧
      delta p.g e.prev.g = 1 ∧ delta p.b e.prev.b = 0 := by decide
theorem witness_Selector_luma :
    let p : Pixel := ⟨60, 68, 60, 255⟩
    let e := encAt ⟨100, 100, 100, 255⟩ p
    cacheRead e.cache (pixelHash p) ≠ p ∧ p.a = e.prev.a ∧ p ≠ e.prev ∧ delta p.g e.prev.g = -32 ∧
      lumaDiff (delta p.r e.prev.r) (delta p.g e.prev.g) = -8 ∧
      lumaDiff (delta p.b e.prev.b) (delta p.g e.prev.g) = -8 := by decide
theorem witness_Selector_rgb :
    let p : Pixel := ⟨100, 132, 100, 255⟩
    let e := encAt ⟨100, 100, 100, 255⟩ p
    cacheRead e.cache (pixelHash p) ≠ p ∧ p.a = e.prev.a ∧ p ≠ e.prev ∧ delta p.g e.prev.g = 32 := by decide
theorem witness_RunLength :
    let e := (atPixel gray10 [gray10, gray10]).enc
    e.pix.length = e.n ∧ e.pos ≤ e.n ∧ runLength e.prev e.upcoming = 2 := by decide
theorem witness_EncoderStep :
    let s := atPixel gray10 [gray10]
    s.inputs = [] ∧ s.dec.status ≠ .running ∧ s.enc.phase = .ops ∧ s.enc.pos < s.enc.n ∧
      s.enc.pix[s.enc.pos]? = some gray10 := by decide
theorem witness_EncMoves :
    EncMoves (atPixel gray10 [gray10]) [] ∧
      EncMoves { atPixel gray10 [gray10] with dec := (atOp gray10 footer).dec, inputs := [.turn .enc] } [] :=
  ⟨.inl ⟨rfl, rfl, by decide⟩, .inr rfl⟩
theorem witness_EncoderStep_turn :
    let s := { atPixel gray10 [gray10] with dec := (atOp gray10 footer).dec, inputs := [.turn .enc] }
    s.inputs = .turn .enc :: [] ∧ s.dec.status = .running ∧ s.enc.phase = .ops ∧ s.enc.pos < s.enc.n ∧
      s.enc.pix[s.enc.pos]? = some gray10 := by decide
theorem witness_HeaderAndFooter_turn :
    let s := { atPixel gray10 [] with dec := (atOp gray10 footer).dec, inputs := [.turn .enc] }
    s.inputs = .turn .enc :: [] ∧ s.dec.status = .running ∧ s.enc.phase = .ops ∧ s.enc.pos = s.enc.n := by decide
theorem witness_HeaderAndFooter_turn_header :
    let s := { State.reset with enc := Enc.start ⟨0, 0, 4, 0⟩ [], inputs := [.turn .enc] }
    s.inputs = .turn .enc :: [] ∧ s.dec.status = .running ∧ s.enc.phase = .header := by decide
theorem witness_HeaderAndFooter_header :
    let s := { atPixel gray10 [] with enc := Enc.start ⟨0, 0, 4, 0⟩ [] }
    s.inputs = [] ∧ s.dec.status ≠ .running ∧ s.enc.phase = .header := by decide
theorem witness_HeaderAndFooter_footer :
    let s := atPixel gray10 []
    s.inputs = [] ∧ s.dec.status ≠ .running ∧ s.enc.phase = .ops ∧ s.enc.pos = s.enc.n := by decide

/-- An encoder of a 3-channel call after its only step, in the state the step leaves. -/
def afterOne : Enc :=
  ({ Enc.start ⟨1, 1, 3, 0⟩ [gray10] with phase := .ops }).retire (.run 1) gray10

theorem afterOne_live : afterOne.Live where
  slots := slotSound_cacheUpdate _ _ slotSound_cacheReset
  posRange := by decide
  count := by decide
  beforeFirst := fun h => absurd h (by decide)
  afterFirst := fun _ => holdsPrev_cacheUpdate _ _
  opaqueAlpha := fun _ => rfl
  beforeHeader := fun h => absurd h (by decide)
  legal := fun _ => by decide
  atDone := fun h => nomatch h

theorem witness_RunOnlyAtTheFirstStep : afterOne.Live ∧ afterOne.pos ≠ 0 := ⟨afterOne_live, by decide⟩
theorem witness_ThreeChannels : afterOne.Live ∧ afterOne.cfg.channels = 3 := ⟨afterOne_live, rfl⟩

theorem witness_DecodeCallStarts :
    let s := { atPixel gray10 [] with inputs := [.startDecode footer] }
    s.inputs = .startDecode footer :: [] ∧ s.dec.status ≠ .running := by decide
theorem witness_EncodeCallStarts :
    ({ State.reset with inputs := [.startEncode ⟨1, 1, 4, 0⟩ [gray10]] } : State).enc.phase = .idle ∧
      LegalInput ⟨1, 1, 4, 0⟩ [gray10] := ⟨rfl, by unfold LegalInput; decide⟩
theorem witness_EncodeCallStarts_empty : LegalInput ⟨0, 7, 3, 1⟩ [] := by unfold LegalInput; decide
theorem witness_BrokenContract_count :
    let s : State := { State.reset with inputs := [.startEncode ⟨2, 1, 4, 0⟩ [gray10]] }
    s.inputs = .startEncode ⟨2, 1, 4, 0⟩ [gray10] :: [] ∧ s.enc.phase = .idle ∧
      [gray10].length ≠ (⟨2, 1, 4, 0⟩ : ImageConfig).pixelCount := by decide
theorem witness_BrokenContract_config :
    let s : State := { State.reset with inputs := [.startEncode ⟨1, 1, 5, 0⟩ [gray10]] }
    s.inputs = .startEncode ⟨1, 1, 5, 0⟩ [gray10] :: [] ∧ s.enc.phase = .idle ∧
      [gray10].length = (⟨1, 1, 5, 0⟩ : ImageConfig).pixelCount ∧ legalChannels 5 = false := by decide
theorem witness_BrokenContract_refused :
    let s : State := { State.reset with
      enc := State.reset.enc.refuse .imageConfig
      dec := { State.reset.dec with status := .done } }
    s.enc.phase = .refused .imageConfig ∧ s.inputs = [] ∧ s.dec.status ≠ .running := by decide
theorem witness_BrokenContract_decoder_moves :
    let s : State := { atOp gray10 footer with enc := State.reset.enc.refuse .pixelCount, inputs := [.turn .dec] }
    s.enc.phase = .refused .pixelCount ∧ DecMoves s [] := ⟨rfl, rfl, .inr rfl⟩
theorem witness_BrokenContract_turn_passes :
    let s : State := { atOp gray10 footer with enc := State.reset.enc.refuse .pixelCount, inputs := [.turn .enc] }
    s.enc.phase = .refused .pixelCount ∧ s.inputs = .turn .enc :: [] ∧ step s = .next { s with inputs := [] } :=
  ⟨rfl, rfl, rfl⟩
theorem witness_EndedEncodeCall :
    let s := { atOp gray10 footer with enc := { afterOne with phase := .done } }
    s.enc.phase ≠ .header ∧ s.enc.phase ≠ .ops ∧ (∀ cfg pix more, s.inputs ≠ .startEncode cfg pix :: more) ∧
      ∃ t, step s = .next t := by
  refine ⟨by decide, by decide, ?_, _, rfl⟩
  intro _ _ _ h
  cases h
theorem witness_TurnPasses :
    let s := { atPixel gray10 [] with enc := { afterOne with phase := .done }, inputs := [.turn .dec, .turn .enc] }
    s.inputs = .turn .dec :: [.turn .enc] ∧ s.dec.status ≠ .running ∧ s.enc.phase ≠ .header ∧ s.enc.phase ≠ .ops := by
  decide
theorem witness_PixelCount_headers :
    legalChannels 3 = true ∧ legalColorspace 1 = true ∧ legalChannels 4 = true ∧ legalColorspace 0 = true := by decide
theorem witness_NotCancelled_dec :
    let s := { atOp gray10 footer with inputs := [.startDecode []] }
    s.inputs = .startDecode [] :: [] ∧ s.dec.status = .running := by decide
theorem witness_NotCancelled_enc :
    let s := { atPixel gray10 [] with inputs := [.startEncode ⟨0, 0, 4, 0⟩ []] }
    s.inputs = .startEncode ⟨0, 0, 4, 0⟩ [] :: [] ∧ (s.enc.phase = .header ∨ s.enc.phase = .ops) ∧
      s.enc.pix.length = s.enc.n ∧ ∃ t, step s = .next t := by
  refine ⟨by decide, by decide, by decide, _, rfl⟩
theorem witness_EnginesCommute :
    ∃ a b, decStep { atPixel gray10 [] with dec := (atOp gray10 footer).dec } = .next a ∧
      encStep { atPixel gray10 [] with dec := (atOp gray10 footer).dec } = .next b := ⟨_, _, rfl, rfl⟩
theorem witness_EveryCallIsOver :
    let s := { State.reset with dec := { State.reset.dec with status := .failed } }
    s.inputs = [] ∧ s.dec.status ≠ .running ∧ s.enc.phase = .idle := by decide
theorem witness_FetchWord : decodeTableWord 8 0xC0 = some (.run 1) := by decide
theorem witness_Mirror :
    (select .runFirst gray10 cacheReset 3 gray10).length ≤ (atOp gray10 [0xC2]).dec.rem := by decide
theorem witness_PixelCount : legalChannels 4 = true ∧ legalColorspace 0 = true ∧ (Instr.run 62).wf = true := by decide
theorem witness_BareCore : legalChannels 3 = true ∧ legalColorspace 0 = true ∧ footer ≠ [] := by decide

theorem start_live (bytes : List Byte) : (Dec.start bytes).Live where
  slots := slotSound_cacheReset
  beforeHeader := fun _ => ⟨rfl, rfl, rfl, rfl, rfl⟩
  offRange := fun h => nomatch h
  headerKept := fun h => nomatch h
  beforeFirstOp := fun _ => ⟨rfl, rfl, rfl⟩
  afterFirstOp := fun h => absurd h (Nat.not_lt_zero _)
  atDone := fun h => nomatch h

theorem witness_StepKeeps :
    let s : State := { enc := afterOne, dec := Dec.start (hdr 4 0 ++ footer), inputs := [] }
    s.Inv ∧ ∃ t, step s = .next t :=
  ⟨⟨fun _ => afterOne_live, ⟨fun _ => start_live _, fun h => nomatch h⟩⟩, _, rfl⟩

end Sys2Proof.Machine.Tests
end

section
/-! SUPPORT. What an op-code step and a whole run of an engine can do, said once: the pixel an op-code stands for, the
outcomes of a decoder step at an op boundary, the bound on the length of a decoder run, and that no run stops short. -/

namespace Sys2Proof.Machine

/-- The pixel an op-code stands for, in the decoder it is executed in (R140 to R145). END stands for none; the value given
for it is never appended. -/
def opPixel : Instr → Dec → Pixel
  | .rgba r g b a, _ => ⟨r, g, b, a⟩
  | .rgb r g b, d => rgbPixel d.prev r g b
  | .index idx, d => cacheRead d.cache idx
  | .diff dr dg db, d => diffPixel d.prev dr dg db
  | .luma dg drg dbg, d => lumaPixel d.prev dg drg dbg
  | .run _, d => d.prev
  | .endMark, d => d.prev

/-- Every op-code is the shared decoder operation, on its own length, pixel count and pixel. -/
theorem exec_eq_decodeOp {i : Instr} (h : i ≠ .endMark) (s : State) :
    exec i s = decodeOp i.length i.pixels (opPixel i) s := by
  cases i with
  | endMark => exact absurd rfl h
  | _ => rfl

/-- END only ends the call (R148). -/
theorem exec_endMark (s : State) : exec .endMark s = .next { s with dec := { s.dec with status := .done } } := rfl

theorem instr_length_pos (i : Instr) : 1 ≤ i.length := by
  cases i with
  | _ => exact Nat.succ_le_succ (Nat.zero_le _)

theorem Dec.busy_iff (d : Dec) : d.busy = true ↔ d.status = .running := by simp [Dec.busy]

/-- With its header accepted a running decoder's step is the op step. -/
theorem decStep_eq_opStep {s : State} (hr : s.dec.busy = true) (hh : s.dec.headerOk = true) :
    decStep s = opStep s := by
  simp [decStep, hr, hh]

/-- Executing an instruction raises at its first byte, ends the call, or completes one op that fits the stream. -/
theorem exec_cases (i : Instr) (s : State) :
    exec i s = .next (raiseDecodeError s.dec.off s) ∨
      exec i s = .next { s with dec := { s.dec with status := .done } } ∨
      ∃ p k n, 1 ≤ n ∧ n ≤ s.dec.rem ∧ exec i s = .next { s with dec := s.dec.retire p k n } := by
  by_cases hi : i = .endMark
  · subst hi; exact .inr (.inl (exec_endMark s))
  · rw [exec_eq_decodeOp hi]
    obtain ⟨-, h⟩ | ⟨hn, h⟩ := decodeOp_cases i.length i.pixels (opPixel i) s
    · exact .inl h
    · exact .inr (.inr ⟨_, _, _, instr_length_pos i, hn, h⟩)

/-- Everything a step at an op boundary can do: raise at `off`, end the call, or complete one op that fits the stream. -/
theorem opStep_cases (s : State) :
    opStep s = .next (raiseDecodeError s.dec.off s) ∨
      opStep s = .next { s with dec := { s.dec with status := .done } } ∨
      ∃ p k n, 1 ≤ n ∧ n ≤ s.dec.rem ∧ opStep s = .next { s with dec := s.dec.retire p k n } := by
  unfold opStep
  split
  · exact .inl rfl
  · split
    · exact exec_cases _ s
    · exact .inl rfl

/-- One iteration of a decoder run. -/
theorem decodeRun_succ_of_step {s t : State} (k : Nat) (hb : s.dec.busy = true) (h : decStep s = .next t) :
    decodeRun (k + 1) s = decodeRun k t := by
  simp [decodeRun, hb, h]

/-- A call that is over stays as it is. -/
theorem decodeRun_of_not_busy {s : State} (k : Nat) (hb : s.dec.busy = false) : decodeRun k s = .next s := by
  cases k <;> simp [decodeRun, hb]

/-- An op step leaves the header accepted, and either ends the call or leaves fewer bytes. -/
theorem opStep_progress (s : State) :
    ∃ t, opStep s = .next t ∧ t.dec.headerOk = s.dec.headerOk ∧ (t.dec.busy = false ∨ t.dec.rem < s.dec.rem) := by
  obtain h | h | ⟨p, k, n, hn, hle, h⟩ := opStep_cases s
  · exact ⟨_, h, rfl, .inl rfl⟩
  · exact ⟨_, h, rfl, .inl rfl⟩
  · refine ⟨_, h, rfl, .inr ?_⟩
    simp only [Dec.rem, Dec.retire_stream, Dec.retire_off] at hle ⊢
    omega

/-- From an op boundary a decode call is over after at most one step for each remaining byte and one more (R151). -/
theorem decodeRun_ends (k : Nat) (s : State) (hh : s.dec.headerOk = true) (hk : s.dec.rem < k) :
    ∃ t, decodeRun k s = .next t ∧ t.dec.busy = false := by
  induction k generalizing s with
  | zero => omega
  | succ k ih =>
    cases hb : s.dec.busy with
    | false => exact ⟨s, decodeRun_of_not_busy _ hb, hb⟩
    | true =>
      obtain ⟨t, ht, hht, hprog⟩ := opStep_progress s
      rw [decodeRun_succ_of_step k hb ((decStep_eq_opStep hb hh).trans ht)]
      obtain hdone | hlt := hprog
      · exact ⟨t, decodeRun_of_not_busy k hdone, hdone⟩
      · exact ih t (hht.trans hh) (by omega)

/-- More steps than a call needs change nothing. -/
theorem decodeRun_add {k : Nat} {s t : State} (j : Nat) (h : decodeRun k s = .next t) (ht : t.dec.busy = false) :
    decodeRun (k + j) s = .next t := by
  induction k generalizing s with
  | zero =>
    cases h
    exact decodeRun_of_not_busy _ ht
  | succ k ih =>
    cases hb : s.dec.busy with
    | false =>
      rw [decodeRun_of_not_busy _ hb] at h ⊢
      exact h
    | true =>
      cases hs : decStep s with
      | next u =>
        rw [decodeRun_succ_of_step k hb hs] at h
        rw [Nat.succ_add, decodeRun_succ_of_step _ hb hs]
        exact ih h
      | fault f => simp [decodeRun, hb, hs] at h
      | refused r => simp [decodeRun, hb, hs] at h

/-- A decode call's result is that of the state its run ends in. -/
theorem decodeCall_of_run {bytes : List Byte} {t : State}
    (h : decodeRun (bytes.length + 1) (startDecode bytes State.reset) = .next t) : decodeCall bytes = t.dec.result := by
  simp only [decodeCall, h]

/-- R97: the first step of an encode call is the header. -/
theorem encStep_header {s : State} (hp : s.enc.phase = .header) : encStep s = .next { s with enc := s.enc.emitHeader } := by
  simp only [encStep, hp]

/-- R120: with a record at `pos`, one op-code step on it. -/
theorem encStep_record {s : State} {raw : Pixel} (hp : s.enc.phase = .ops) (hlt : s.enc.pos < s.enc.n)
    (hraw : s.enc.pix[s.enc.pos]? = some raw) : encStep s = .next { s with enc := s.enc.opStep raw } := by
  simp only [encStep, hp, if_pos hlt, hraw]

/-- R184: with no record at a `pos` below `N`, the call is refused. -/
theorem encStep_missing {s : State} (hp : s.enc.phase = .ops) (hlt : s.enc.pos < s.enc.n)
    (hraw : s.enc.pix[s.enc.pos]? = none) : encStep s = .next { s with enc := s.enc.refuse .pixelCount } := by
  simp only [encStep, hp, if_pos hlt, hraw]

/-- R98: with every record consumed, the footer. -/
theorem encStep_footer {s : State} (hp : s.enc.phase = .ops) (hle : s.enc.n ≤ s.enc.pos) :
    encStep s = .next { s with enc := s.enc.emitFooter } := by
  simp only [encStep, hp, if_neg (Nat.not_lt.2 hle)]

/-- The encoder of a call in progress always has a next state. -/
theorem encStep_of_busy {s : State} (hb : s.enc.busy = true) : ∃ t, encStep s = .next t := by
  have hphase : s.enc.phase = .header ∨ s.enc.phase = .ops := by simpa [Enc.busy] using hb
  obtain hp | hp := hphase
  · exact ⟨_, encStep_header hp⟩
  · by_cases hlt : s.enc.pos < s.enc.n
    · cases hraw : s.enc.pix[s.enc.pos]? with
      | some raw => exact ⟨_, encStep_record hp hlt hraw⟩
      | none => exact ⟨_, encStep_missing hp hlt hraw⟩
    · exact ⟨_, encStep_footer hp (Nat.le_of_not_lt hlt)⟩

/-- One iteration of an encoder run. -/
theorem encodeRun_succ_of_step {s t : State} (k : Nat) (hb : s.enc.busy = true) (h : encStep s = .next t) :
    encodeRun (k + 1) s = encodeRun k t := by
  simp [encodeRun, hb, h]

/-- A call that is over, or has no run, stays as it is. -/
theorem encodeRun_of_not_busy {s : State} (k : Nat) (hb : s.enc.busy = false) : encodeRun k s = .next s := by
  cases k <;> simp [encodeRun, hb]

/-- A run of the encoder never stops short: `encodeRun` stops where `encStep` would fault or refuse. -/
theorem encodeRun_next (k : Nat) (s : State) : ∃ t, encodeRun k s = .next t := by
  induction k generalizing s with
  | zero => exact ⟨s, rfl⟩
  | succ k ih =>
    cases hb : s.enc.busy with
    | false => exact ⟨s, encodeRun_of_not_busy _ hb⟩
    | true =>
      obtain ⟨t, ht⟩ := encStep_of_busy hb
      obtain ⟨u, hu⟩ := ih t
      exact ⟨u, (encodeRun_succ_of_step k hb ht).trans hu⟩

/-- An encode call's result is that of the state its run ends in. -/
theorem encodeCall_of_run {cfg : ImageConfig} {pix : List Pixel} {t : State}
    (h : encodeRun (pix.length + 2) (startEncode cfg pix State.reset) = .next t) :
    encodeCall cfg pix = t.enc.result := by
  simp only [encodeCall, h]

/-- R184: a call that breaks its precondition has no result. -/
theorem encodeCall_breach {cfg : ImageConfig} {pix : List Pixel} {b : Breach} (h : breach cfg pix = some b) :
    encodeCall cfg pix = none := by
  have hrun : encodeRun (pix.length + 2) (startEncode cfg pix State.reset) =
      .next { State.reset with enc := State.reset.enc.refuse b } := by
    rw [startEncode_breach h]
    exact encodeRun_of_not_busy _ (by simp [Enc.busy])
  rw [encodeCall_of_run hrun]
  rfl

end Sys2Proof.Machine
end

section
/-! SUPPORT. The header of a legal configuration: it has 14 bytes, passes R99's checks before any op stream, and reads back
as the configuration (R97, R99, R100). -/

namespace Sys2Proof.Machine

@[simp] theorem headerBytes_length (cfg : ImageConfig) : (headerBytes cfg).length = 14 := rfl

/-- R30: the four bytes of a 32-bit field, joined most significant first, are the field. -/
theorem bigEndian32_join (v : BitVec 32) :
    v.extractLsb' 24 8 ++ v.extractLsb' 16 8 ++ v.extractLsb' 8 8 ++ v.extractLsb' 0 8 = v := by
  apply BitVec.eq_of_getLsbD_eq
  intro i hi
  simp only [BitVec.getLsbD_append, BitVec.getLsbD_extractLsb']
  grind

/-- R100: the parsed values are the configuration the header was made from. -/
@[simp] theorem parseConfig_headerBytes (cfg : ImageConfig) (bytes : List Byte) :
    parseConfig (headerBytes cfg ++ bytes) = cfg := by
  have hw : word32At (headerBytes cfg ++ bytes) 4 = cfg.width := bigEndian32_join cfg.width
  have hh : word32At (headerBytes cfg ++ bytes) 8 = cfg.height := bigEndian32_join cfg.height
  simp only [parseConfig, hw, hh]
  rfl

/-- R99: a legal header with at least one byte after it passes all four checks. -/
theorem headerError_headerBytes {cfg : ImageConfig} {bytes : List Byte} (hc : legalChannels cfg.channels = true)
    (hs : legalColorspace cfg.colorspace = true) (hb : bytes ≠ []) : headerError (headerBytes cfg ++ bytes) = none := by
  have hlen : 14 < (headerBytes cfg ++ bytes).length := by
    have hpos : 0 < bytes.length := List.length_pos_iff.2 hb
    simp only [List.length_append, headerBytes_length]
    omega
  have hmagic : ¬ ((headerBytes cfg ++ bytes).length < 4 ∨ (headerBytes cfg ++ bytes).take 4 ≠ magic) := by
    rintro (hshort | hother)
    · omega
    · exact hother rfl
  have hchannels : byteAt (headerBytes cfg ++ bytes) 12 = cfg.channels := rfl
  have hcolorspace : byteAt (headerBytes cfg ++ bytes) 13 = cfg.colorspace := rfl
  rw [headerError, if_neg hmagic, if_neg (Nat.not_le.2 hlen), hchannels, hcolorspace, hc, hs]
  rfl

/-- The first step of a decode call on a legal header is the header's acceptance. -/
theorem decodeRun_headerBytes {cfg : ImageConfig} {bytes : List Byte} (hc : legalChannels cfg.channels = true)
    (hs : legalColorspace cfg.colorspace = true) (hb : bytes ≠ []) (k : Nat) (s : State) :
    decodeRun (k + 1) (startDecode (headerBytes cfg ++ bytes) s) =
      decodeRun k { s with dec := (Dec.start (headerBytes cfg ++ bytes)).acceptHeader } := by
  apply decodeRun_succ_of_step k rfl
  simp [decStep, Dec.busy, headerStep, headerError_headerBytes hc hs hb]

end Sys2Proof.Machine
end

section
/-! O53. The framed decoder is the bare one with the header's bytes before its stream, and the framed encoder is the
bare one with the header's bytes before its output; every step keeps these two relations, and a run has steps to spare. -/

namespace Sys2Proof.Machine

/-! ### The decoder behind a header -/

/-- The same decoder when the bytes `pre` stand before its stream: offsets count them too, and nothing else changes.
`errOffset` is an offset only once the call has FAILED. -/
def Dec.behind (pre : List Byte) (d : Dec) : Dec :=
  { d with
    stream := pre ++ d.stream
    off := pre.length + d.off
    errOffset := if d.status = .failed then pre.length + d.errOffset else d.errOffset }

/-- The machine with `pre` before its decoder's stream. -/
def State.behind (pre : List Byte) (s : State) : State := { s with dec := s.dec.behind pre }

section
variable (pre : List Byte)

@[simp] theorem State.behind_dec (s : State) : (s.behind pre).dec = s.dec.behind pre := rfl

@[simp] theorem Dec.behind_rest (d : Dec) : (d.behind pre).rest = d.rest := by
  simp [Dec.rest, Dec.behind]

@[simp] theorem Dec.behind_rem (d : Dec) : (d.behind pre).rem = d.rem := by
  simp [Dec.rem, Dec.behind, Nat.add_sub_add_left]

theorem Dec.behind_retire (d : Dec) (p : Pixel) (k n : Nat) :
    (d.behind pre).retire p k n = (d.retire p k n).behind pre := by
  simp only [Dec.retire, Dec.behind, Nat.add_assoc]
  rfl

theorem Dec.behind_done {d : Dec} (hr : d.busy = true) :
    { d.behind pre with status := .done } = ({ d with status := .done } : Dec).behind pre := by
  have hrunning : d.status = .running := (Dec.busy_iff d).1 hr
  simp [Dec.behind, hrunning]

theorem State.behind_raise (s : State) :
    raiseDecodeError (s.behind pre).dec.off (s.behind pre) = (raiseDecodeError s.dec.off s).behind pre := rfl

/-- No op-code's pixel depends on the stream or the offset. -/
theorem opPixel_behind (i : Instr) (d : Dec) : opPixel i (d.behind pre) = opPixel i d := by cases i <;> rfl

/-- What the host reads of the call: the same image, or an offset that counts the header. -/
theorem Dec.behind_result (d : Dec) :
    (d.behind pre).result = d.result.map (Except.mapError (· + pre.length)) := by
  cases h : d.status <;> simp [Dec.result, Dec.behind, h, Except.mapError, Nat.add_comm]

/-- The commuting square of one instruction. -/
theorem exec_behind (i : Instr) {s t : State} (hr : s.dec.busy = true) (h : exec i s = .next t) :
    exec i (s.behind pre) = .next (t.behind pre) := by
  by_cases hi : i = .endMark
  · subst hi
    cases h
    rw [exec_endMark, State.behind_dec, Dec.behind_done pre hr]
    rfl
  · rw [exec_eq_decodeOp hi] at h ⊢
    obtain ⟨hlt, he⟩ | ⟨hle, he⟩ := decodeOp_cases i.length i.pixels (opPixel i) s
    · cases he.symm.trans h
      rw [decodeOp_short (by simpa using hlt), State.behind_raise]
    · cases he.symm.trans h
      rw [decodeOp_complete (by simpa using hle), State.behind_dec, opPixel_behind, Dec.behind_retire]
      rfl

/-- The commuting square of one op step. -/
theorem opStep_behind {s t : State} (hr : s.dec.busy = true) (h : opStep s = .next t) :
    opStep (s.behind pre) = .next (t.behind pre) := by
  unfold opStep at h ⊢
  rw [State.behind_raise, State.behind_dec, Dec.behind_rest, Dec.behind_rem]
  split at h
  next htrunc =>
    cases h
    rw [if_pos htrunc]
  next htrunc =>
    rw [if_neg htrunc]
    split at h
    next => exact exec_behind pre _ hr h
    next => cases h; rfl

/-- The commuting square of a whole run from an op boundary. -/
theorem decodeRun_behind {k : Nat} {s t : State} (hh : s.dec.headerOk = true) (h : decodeRun k s = .next t) :
    decodeRun k (s.behind pre) = .next (t.behind pre) := by
  induction k generalizing s with
  | zero => cases h; rfl
  | succ k ih =>
    cases hb : s.dec.busy with
    | false =>
      rw [decodeRun_of_not_busy _ hb] at h
      cases h
      exact decodeRun_of_not_busy _ hb
    | true =>
      obtain ⟨u, hu, hhu, -⟩ := opStep_progress s
      rw [decodeRun_succ_of_step k hb ((decStep_eq_opStep hb hh).trans hu)] at h
      have hstep : decStep (s.behind pre) = .next (u.behind pre) :=
        (decStep_eq_opStep (s := s.behind pre) hb hh).trans (opStep_behind pre hb hu)
      rw [decodeRun_succ_of_step (s := s.behind pre) k hb hstep]
      exact ih (hhu.trans hh) h

end

/-- The bare decoder at the start of its call (D1). -/
def Dec.bareStart (cfg : ImageConfig) (bytes : List Byte) : Dec :=
  { Dec.start bytes with cfg := cfg, headerOk := true }

/-- R100: a decoder that has accepted a header is the bare one behind that header. -/
theorem acceptHeader_headerBytes (cfg : ImageConfig) (bytes : List Byte) :
    (Dec.start (headerBytes cfg ++ bytes)).acceptHeader = (Dec.bareStart cfg bytes).behind (headerBytes cfg) := by
  simp only [Dec.acceptHeader, Dec.start_stream, parseConfig_headerBytes]
  rfl

/-- The bare decode call's result is that of the state its run ends in. -/
theorem bareDecodeCall_of_run {cfg : ImageConfig} {bytes : List Byte} {t : State}
    (h : decodeRun (bytes.length + 1) { State.reset with dec := Dec.bareStart cfg bytes } = .next t) :
    bareDecodeCall cfg bytes = t.dec.result := by
  unfold Dec.bareStart at h
  simp only [bareDecodeCall, h]

/-- R3, D1 for the decode call. -/
theorem decodeCall_headerBytes {cfg : ImageConfig} {bytes : List Byte} (hc : legalChannels cfg.channels = true)
    (hs : legalColorspace cfg.colorspace = true) (hb : bytes ≠ []) :
    decodeCall (headerBytes cfg ++ bytes) = (bareDecodeCall cfg bytes).map (Except.mapError (· + 14)) := by
  obtain ⟨t, ht, hover⟩ := decodeRun_ends (bytes.length + 1) { State.reset with dec := Dec.bareStart cfg bytes } rfl
    (Nat.lt_succ_of_le (Nat.sub_le _ _))
  have hfuel : (headerBytes cfg ++ bytes).length = bytes.length + 1 + 13 := by
    simp only [List.length_append, headerBytes_length]; omega
  have hframed : decodeRun ((headerBytes cfg ++ bytes).length + 1)
      (startDecode (headerBytes cfg ++ bytes) State.reset) = .next (t.behind (headerBytes cfg)) := by
    rw [decodeRun_headerBytes hc hs hb, acceptHeader_headerBytes, hfuel]
    exact decodeRun_behind (headerBytes cfg) rfl (decodeRun_add 13 ht hover)
  rw [decodeCall_of_run hframed, bareDecodeCall_of_run ht]
  exact Dec.behind_result (headerBytes cfg) t.dec

/-! ### The encoder after a header -/

/-- The same encoder when it has emitted `pre` before all else. -/
def Enc.emittedAfter (pre : List Byte) (e : Enc) : Enc := { e with out := pre ++ e.out }

/-- The machine with `pre` before what its encoder has emitted. -/
def State.emittedAfter (pre : List Byte) (s : State) : State := { s with enc := s.enc.emittedAfter pre }

section
variable (pre : List Byte)

theorem Enc.emittedAfter_emitHeader (e : Enc) : (e.emittedAfter pre).emitHeader = e.emitHeader.emittedAfter pre := by
  simp only [Enc.emitHeader, Enc.emittedAfter, List.append_assoc]

theorem Enc.emittedAfter_emitFooter (e : Enc) : (e.emittedAfter pre).emitFooter = e.emitFooter.emittedAfter pre := by
  simp only [Enc.emitFooter, Enc.emittedAfter, List.append_assoc]

/-- What the encoder chooses does not depend on `OUT`. -/
theorem Enc.emittedAfter_opStep (e : Enc) (raw : Pixel) :
    (e.emittedAfter pre).opStep raw = (e.opStep raw).emittedAfter pre := by
  have hchoose (p : Pixel) : (e.emittedAfter pre).choose p = e.choose p := rfl
  simp only [Enc.opStep, hchoose]
  simp only [Enc.retire, Enc.emittedAfter, List.append_assoc]

/-- The commuting square of one encoder step. -/
theorem encStep_emittedAfter {s t : State} (h : encStep s = .next t) :
    encStep (s.emittedAfter pre) = .next (t.emittedAfter pre) := by
  obtain ⟨hp, rfl⟩ | ⟨hp, hlt, raw, hraw, rfl⟩ | ⟨hp, hle, rfl⟩ | ⟨hp, hlt, hraw, rfl⟩ := encStep_cases h
  · rw [encStep_header (s := s.emittedAfter pre) hp]
    simp only [State.emittedAfter, Enc.emittedAfter_emitHeader]
  · rw [encStep_record (s := s.emittedAfter pre) hp hlt hraw]
    simp only [State.emittedAfter, Enc.emittedAfter_opStep]
  · rw [encStep_footer (s := s.emittedAfter pre) hp hle]
    simp only [State.emittedAfter, Enc.emittedAfter_emitFooter]
  · rw [encStep_missing (s := s.emittedAfter pre) hp hlt hraw]
    rfl

/-- The commuting square of a whole encoder run. -/
theorem encodeRun_emittedAfter {k : Nat} {s t : State} (h : encodeRun k s = .next t) :
    encodeRun k (s.emittedAfter pre) = .next (t.emittedAfter pre) := by
  induction k generalizing s with
  | zero => cases h; rfl
  | succ k ih =>
    cases hb : s.enc.busy with
    | false =>
      rw [encodeRun_of_not_busy _ hb] at h
      cases h
      exact encodeRun_of_not_busy _ hb
    | true =>
      obtain ⟨u, hu⟩ := encStep_of_busy hb
      rw [encodeRun_succ_of_step k hb hu] at h
      rw [encodeRun_succ_of_step (s := s.emittedAfter pre) k hb (encStep_emittedAfter pre hu)]
      exact ih h

theorem result_emittedAfter (s : State) :
    (s.emittedAfter pre).enc.result = s.enc.result.map fun bytes => pre ++ bytes := by
  by_cases h : s.enc.phase = .done <;> simp [Enc.result, State.emittedAfter, Enc.emittedAfter, h]

end

/-- The bare encoder at the start of its call (D1). -/
def Enc.bareStart (cfg : ImageConfig) (pix : List Pixel) : Enc := { Enc.start cfg pix with phase := .ops }

/-- The bare encode call's result is that of the state its run ends in, on a legal input. -/
theorem bareEncodeCall_of_run {cfg : ImageConfig} {pix : List Pixel} {t : State} (hlegal : breach cfg pix = none)
    (h : encodeRun (pix.length + 1) { State.reset with enc := Enc.bareStart cfg pix } = .next t) :
    bareEncodeCall cfg pix = t.enc.result := by
  unfold Enc.bareStart at h
  simp only [bareEncodeCall, hlegal, h]

/-- R97: after the header the framed encoder is the bare one that has emitted the header. -/
theorem encodeRun_header (cfg : ImageConfig) (pix : List Pixel) (k : Nat) (s : State) :
    encodeRun (k + 1) { s with enc := Enc.start cfg pix } =
      encodeRun k (({ s with enc := Enc.bareStart cfg pix } : State).emittedAfter (headerBytes cfg)) :=
  encodeRun_succ_of_step k rfl (encStep_header rfl)

/-- R3, D1 for the encode call; where the model refuses the one it refuses the other. -/
theorem encodeCall_eq_bareEncodeCall (cfg : ImageConfig) (pix : List Pixel) :
    encodeCall cfg pix = (bareEncodeCall cfg pix).map fun bytes => headerBytes cfg ++ bytes := by
  cases hbreach : breach cfg pix with
  | some b => simp only [encodeCall_breach hbreach, bareEncodeCall, hbreach, Option.map_none]
  | none =>
    obtain ⟨t, ht⟩ := encodeRun_next (pix.length + 1) { State.reset with enc := Enc.bareStart cfg pix }
    have hframed : encodeRun (pix.length + 2) (startEncode cfg pix State.reset) =
        .next (t.emittedAfter (headerBytes cfg)) := by
      rw [startEncode_legal ((breach_eq_none_iff cfg pix).1 hbreach), encodeRun_header]
      exact encodeRun_emittedAfter (headerBytes cfg) ht
    rw [encodeCall_of_run hframed, bareEncodeCall_of_run hbreach ht]
    exact result_emittedAfter (headerBytes cfg) t

end Sys2Proof.Machine

open Sys2Proof.Machine

/-- Settles O53: the framed engine and the bare one stay related by the header's bytes, which stand before the decoder's
stream and before the encoder's output. -/
theorem bareCoreAgreesWithTheFramed : Obligations.BareCoreAgreesWithTheFramed := by
  intro cfg hc hs
  refine ⟨fun bytes hb => ?_, encodeCall_eq_bareEncodeCall cfg⟩
  rw [decodeCall_headerBytes hc hs hb]
  cases bareDecodeCall cfg bytes with
  | none => rfl
  | some r => cases r <;> rfl
end

section
/-! SUPPORT. What the decoder keeps while the other engine or the host moves, and what the two live invariants amount to
for an engine that still holds its reset values. -/

namespace Sys2Proof.Machine

/-! ### Steps that are not the decoder's -/

/-- R40: an encoder step leaves the decoder as it is. -/
theorem encStep_dec {s t : State} (h : encStep s = .next t) : t.dec = s.dec := by
  obtain ⟨-, rfl⟩ | ⟨-, -, _, -, rfl⟩ | ⟨-, -, rfl⟩ | ⟨-, -, -, rfl⟩ := encStep_cases h
  · rfl
  · rfl
  · rfl
  · rfl

/-- R181: the start of an encode call, or its refusal, leaves the decoder as it is. -/
@[simp] theorem startEncode_dec (cfg : ImageConfig) (pix : List Pixel) (s : State) :
    (startEncode cfg pix s).dec = s.dec := by
  cases hbreach : breach cfg pix with
  | some b => rw [startEncode_breach hbreach]
  | none => rw [startEncode_legal ((breach_eq_none_iff cfg pix).1 hbreach)]

/-- While no decode call runs, taking a host input other than the start of one leaves the decoder as it is. -/
theorem takeInput_dec {i : Input} {more : List Input} {s t : State} (hb : s.dec.busy = false)
    (hi : ∀ bytes, i ≠ .startDecode bytes) (h : takeInput i more s = .next t) : t.dec = s.dec := by
  cases i with
  | startEncode cfg pix =>
    simp only [takeInput] at h
    split at h
    · exact encStep_dec h
    · cases h; exact startEncode_dec cfg pix _
  | startDecode bytes => exact absurd rfl (hi bytes)
  | turn e =>
    cases e with
    | enc =>
      simp only [takeInput] at h
      split at h
      · exact encStep_dec (s := { s with inputs := more }) h
      · cases h; rfl
    | dec =>
      simp only [takeInput, hb] at h
      cases h; rfl

/-! ### Engines that hold their reset values -/

/-- Before its header is accepted, a live decoder is one that holds R23's values. -/
theorem Dec.live_iff_of_not_headerOk {d : Dec} (hh : d.headerOk = false) :
    d.Live ↔
      d.off = 0 ∧ d.prev = Config.prevInit ∧ d.cache = cacheReset ∧ d.img = [] ∧ d.status = .running := by
  refine ⟨fun hlive => hlive.beforeHeader hh, fun hreset => ?_⟩
  obtain ⟨hoff, hprev, hcache, himg, hstatus⟩ := hreset
  exact {
    slots := hcache ▸ slotSound_cacheReset
    beforeHeader := fun _ => ⟨hoff, hprev, hcache, himg, hstatus⟩
    offRange := by simp [hh]
    headerKept := by simp [hh]
    beforeFirstOp := fun _ => ⟨hprev, hcache, himg⟩
    afterFirstOp := by simp [hoff]
    atDone := by simp [hstatus] }

/-- An encoder before its first call that holds R23's values, with as many pixels as its configuration says, is live;
nothing is asked of its configuration. -/
theorem Enc.live_of_idle {cfg : ImageConfig} {pix : List Pixel} (hcount : pix.length = cfg.pixelCount) :
    ({ Enc.start cfg pix with phase := .idle } : Enc).Live where
  slots := slotSound_cacheReset
  posRange := Nat.zero_le _
  count := hcount
  beforeFirst := fun _ => ⟨rfl, rfl⟩
  afterFirst := fun hpos => absurd rfl hpos
  opaqueAlpha := fun _ => rfl
  beforeHeader := fun _ => ⟨rfl, rfl⟩
  legal := fun hidle => absurd rfl hidle
  atDone := fun hdone => nomatch hdone

/-- The machine's reset is the start of a decode call beside an encoder before its first call (log 4). -/
theorem State.reset_inv : State.reset.Inv where
  enc := fun _ => Enc.live_of_idle rfl
  dec :=
    { live := fun _ => (Dec.live_iff_of_not_headerOk rfl).2 ⟨rfl, rfl, rfl, rfl, rfl⟩
      errRange := fun hfailed => nomatch hfailed }

end Sys2Proof.Machine

open Sys2Proof.Machine

/-- Settles O22: an instruction raises, ends the call or completes one op, and none of the three touches the rest. -/
theorem instructionsTouchOnlyTheDecoder : Obligations.InstructionsTouchOnlyTheDecoder := by
  intro i s t h
  obtain hraise | hend | ⟨p, k, n, -, -, hretire⟩ := exec_cases i s
  · cases hraise.symm.trans h
    exact ⟨rfl, rfl, rfl, rfl, rfl⟩
  · cases hend.symm.trans h
    exact ⟨rfl, rfl, rfl, rfl, rfl⟩
  · cases hretire.symm.trans h
    exact ⟨rfl, rfl, rfl, rfl, rfl⟩

/-- Settles O30: with no decode call running, only the host's start of one moves the decoder. -/
theorem endedDecodeCallStaysAsItIs : Obligations.EndedDecodeCallStaysAsItIs := by
  intro s t hover hstart h
  have hb : s.dec.busy = false := by simpa [Dec.busy] using hover
  cases hinputs : s.inputs with
  | nil =>
    simp only [step, hinputs, moveBusy, hb] at h
    exact encStep_dec h
  | cons i more =>
    simp only [step, hinputs] at h
    exact takeInput_dec hb (fun bytes hi => hstart bytes more (hi ▸ hinputs)) h

/-- Settles O55: the decoder stands before its header and the encoder before its first call, both with R23's values. -/
theorem resetMeetsTheInvariant : Obligations.ResetMeetsTheInvariant :=
  ⟨State.reset_inv, rfl, rfl, fun i => ⟨cacheRead_cacheReset i, cacheRead_cacheReset i⟩, rfl, rfl, rfl, rfl, rfl⟩
end

section
/-! O11. What the acceptance of a header says of its bytes. -/

namespace Sys2Proof.Machine

/-- R99: a header that passes has a byte after it, and its last two bytes are legal. -/
theorem legal_of_headerError_eq_none {bytes : List Byte} (h : headerError bytes = none) :
    14 < bytes.length ∧ legalChannels (byteAt bytes 12) = true ∧ legalColorspace (byteAt bytes 13) = true := by
  unfold headerError at h
  split at h
  next => cases h
  next =>
    split at h
    next => cases h
    next hlen =>
      split at h
      next => cases h
      next hchannels =>
        split at h
        next => cases h
        next hcolorspace =>
          exact ⟨Nat.lt_of_not_le hlen, Bool.eq_true_of_not_eq_false hchannels,
            Bool.eq_true_of_not_eq_false hcolorspace⟩

end Sys2Proof.Machine

open Sys2Proof.Machine

/-- Settles O11: bytes 12 and 13 of a configuration's header are its channels and its colourspace, and the header alone
is 14 bytes long, one too few. -/
theorem headerOfConfigParsesBack : Obligations.HeaderOfConfigParsesBack := by
  intro cfg rest
  refine ⟨parseConfig_headerBytes cfg rest, fun h => ?_, fun ⟨hc, hs, hrest⟩ => headerError_headerBytes hc hs hrest⟩
  obtain ⟨hlen, hchannels, hcolorspace⟩ := legal_of_headerError_eq_none h
  refine ⟨hchannels, hcolorspace, ?_⟩
  rintro rfl
  rw [List.append_nil, headerBytes_length] at hlen
  exact Nat.lt_irrefl 14 hlen
end

section
/-! O44. Each engine's step neither reads nor writes the other engine, so it is the same step beside any other engine. -/

namespace Sys2Proof.Machine

/-! ### The encoder's step beside any decoder -/

/-- R40: an encoder step is the same beside any decoder, and changes the encoder only. -/
theorem encStep_withDec {s t : State} (h : encStep s = .next t) (d : Dec) :
    encStep { s with dec := d } = .next { s with dec := d, enc := t.enc } := by
  obtain ⟨hp, rfl⟩ | ⟨hp, hlt, raw, hraw, rfl⟩ | ⟨hp, hle, rfl⟩ | ⟨hp, hlt, hraw, rfl⟩ := encStep_cases h
  · exact encStep_header hp
  · exact encStep_record hp hlt hraw
  · exact encStep_footer hp hle
  · exact encStep_missing hp hlt hraw

/-! ### The decoder's step beside any encoder -/

section
variable {s t : State} (e : Enc)

theorem decodeOp_withEnc {n k : Nat} {p : Dec → Pixel} (h : decodeOp n k p s = .next t) :
    decodeOp n k p { s with enc := e } = .next { s with enc := e, dec := t.dec } := by
  obtain ⟨hlt, he⟩ | ⟨hle, he⟩ := decodeOp_cases n k p s
  · cases he.symm.trans h
    exact decodeOp_short hlt
  · cases he.symm.trans h
    exact decodeOp_complete hle

theorem exec_withEnc {i : Instr} (h : exec i s = .next t) :
    exec i { s with enc := e } = .next { s with enc := e, dec := t.dec } := by
  by_cases hi : i = .endMark
  · subst hi
    cases h
    rfl
  · rw [exec_eq_decodeOp hi] at h ⊢
    exact decodeOp_withEnc e h

theorem opStep_withEnc (h : opStep s = .next t) :
    opStep { s with enc := e } = .next { s with enc := e, dec := t.dec } := by
  unfold opStep at h ⊢
  split at h
  next htrunc =>
    cases h
    exact if_pos htrunc
  next htrunc =>
    rw [if_neg htrunc]
    split at h
    next hdecode =>
      simp only [hdecode]
      exact exec_withEnc e h
    next hdecode =>
      cases h
      simp only [hdecode]
      rfl

theorem headerStep_withEnc (h : headerStep s = .next t) :
    headerStep { s with enc := e } = .next { s with enc := e, dec := t.dec } := by
  obtain ⟨o, herror, he⟩ | ⟨herror, he⟩ := headerStep_cases s
  · cases he.symm.trans h
    simp only [headerStep, herror]
    rfl
  · cases he.symm.trans h
    simp only [headerStep, herror]

/-- R40: a decoder step is the same beside any encoder, and changes the decoder only, also where it raises (log 6). -/
theorem decStep_withEnc (h : decStep s = .next t) :
    decStep { s with enc := e } = .next { s with enc := e, dec := t.dec } := by
  unfold decStep at h ⊢
  split at h
  next => cases h
  next hbusy =>
    rw [if_neg hbusy]
    split at h
    next hheader => exact (if_pos hheader).trans (opStep_withEnc e h)
    next hheader => exact (if_neg hheader).trans (headerStep_withEnc e h)

end

end Sys2Proof.Machine

open Sys2Proof.Machine

/-- Settles O44: after both steps, in either order, the machine has the one engine of each step and the inputs of the
start. -/
theorem engineStepsCommute : Obligations.EngineStepsCommute := by
  intro s a b hdec henc
  have ha : a = { s with dec := a.dec } := Host.Outcome.next.inj (hdec.symm.trans (decStep_withEnc s.enc hdec))
  have hb : b = { s with enc := b.enc } := Host.Outcome.next.inj (henc.symm.trans (encStep_withDec henc s.dec))
  exact ⟨{ s with enc := b.enc, dec := a.dec }, (congrArg encStep ha).trans (encStep_withDec henc a.dec),
    (congrArg decStep hb).trans (decStep_withEnc b.enc hdec)⟩
end

section
/-! O7, O8. What the decoder reads at an op boundary that is not the end: UNPACK gives an op-code of the first byte's kind,
or the bytes are too few. The footer's bytes with more after them are no footer. -/

namespace Sys2Proof

theorem decode_footer : decode footer = .ok (.endMark, []) := rfl

theorem decode_cons {b0 : Byte} {rest : List Byte} (h : b0 :: rest ≠ footer) :
    decode (b0 :: rest) = unpack (kindOf b0) b0 rest := if_neg h

/-- R51, R60, R146: UNPACK takes the bytes of its kind and gives an op-code, never END; it fails only when they are too
few. -/
theorem unpack_cases (k : Kind) (b0 : Byte) (rest : List Byte) :
    (rest.length + 1 < k.length ∧ unpack k b0 rest = .error (.shortPayload k)) ∨
      ∃ i left, unpack k b0 rest = .ok (i, left) ∧ i ≠ .endMark ∧ i.length = k.length ∧
        left.length + i.length = rest.length + 1 := by
  cases k with
  | index | diff | run => exact .inr ⟨_, _, rfl, nofun, rfl, rfl⟩
  | luma =>
    match rest with
    | [] => exact .inl ⟨by simp [Kind.length], rfl⟩
    | _ :: _ => exact .inr ⟨_, _, rfl, nofun, rfl, rfl⟩
  | rgb =>
    match rest with
    | [] | [_] | [_, _] => exact .inl ⟨by simp [Kind.length], rfl⟩
    | _ :: _ :: _ :: _ => exact .inr ⟨_, _, rfl, nofun, rfl, rfl⟩
  | rgba =>
    match rest with
    | [] | [_] | [_, _] | [_, _, _] => exact .inl ⟨by simp [Kind.length], rfl⟩
    | _ :: _ :: _ :: _ :: _ => exact .inr ⟨_, _, rfl, nofun, rfl, rfl⟩

theorem kind_length_le (k : Kind) : k.length ≤ 5 := by cases k <;> decide

/-- R62: END is read exactly where the bytes that remain are the footer. -/
theorem decode_eq_endMark_iff (bytes rest : List Byte) :
    decode bytes = .ok (.endMark, rest) ↔ bytes = footer ∧ rest = [] := by
  refine ⟨fun h => ?_, fun ⟨hbytes, hrest⟩ => by rw [hbytes, hrest, decode_footer]⟩
  by_cases hfooter : bytes = footer
  · rw [hfooter, decode_footer] at h
    cases h
    exact ⟨hfooter, rfl⟩
  · cases bytes with
    | nil => cases h
    | cons b0 tl =>
      rw [decode_cons hfooter] at h
      obtain ⟨-, herror⟩ | ⟨i, left, hok, hi, -⟩ := unpack_cases (kindOf b0) b0 tl
      · cases herror.symm.trans h
      · cases hok.symm.trans h
        exact absurd rfl hi

/-! ### INDEX -/

theorem kindOf_of_lt_64 {b0 : Byte} (h : b0.toNat < 64) : kindOf b0 = .index := by
  have hff : b0 ≠ 0xFF := by rintro rfl; exact absurd h (by decide)
  have hfe : b0 ≠ 0xFE := by rintro rfl; exact absurd h (by decide)
  have htag : bits b0 7 6 = 0 := by simp [bits, Nat.div_eq_of_lt h]
  rw [kindOf, if_neg hff, if_neg hfe, if_pos htag]

/-- R53: a byte below 64 that does not begin the footer at the end is the INDEX of that slot. -/
theorem decode_of_lt_64 {b0 : Byte} {rest : List Byte} (h : b0.toNat < 64) (hne : b0 :: rest ≠ footer) :
    decode (b0 :: rest) = .ok (.index ⟨b0.toNat, h⟩, rest) := by
  have hslot : Fin.ofNat 64 (bits b0 5 0) = ⟨b0.toNat, h⟩ := Fin.ext (by simpa [bits, Fin.ofNat] using h)
  rw [decode_cons hne, kindOf_of_lt_64 h, ← hslot]
  rfl

/-! ### The footer's bytes before other bytes -/

/-- A suffix of the footer with more bytes after it is not the footer: the whole footer is then too long, and a shorter
suffix has its 01 where the footer still has a zero. -/
theorem footer_drop_append_ne {k : Nat} {tl : List Byte} (hk : k < 8) (htl : tl ≠ []) :
    footer.drop k ++ tl ≠ footer := by
  intro h
  by_cases hk0 : k = 0
  · subst hk0
    exact htl (List.append_right_eq_self.mp h)
  · have hlt : 7 - k < (footer.drop k).length := by
      rw [List.length_drop, show footer.length = 8 from rfl]
      omega
    have hone : (footer.drop k ++ tl)[7 - k]? = some 1 := by
      rw [List.getElem?_append_left hlt, List.getElem?_drop, show k + (7 - k) = 7 by omega]
      rfl
    have hzero : ∀ j < 7, footer[j]? = some 0 := by decide
    rw [h, hzero (7 - k) (by omega)] at hone
    exact absurd hone (by decide)

/-- R62: each of the footer's zeros with more bytes after the footer is an INDEX of slot 0. -/
theorem decode_footer_drop_append {k : Nat} {tl : List Byte} (hk : k < 7) (htl : tl ≠ []) :
    decode (footer.drop k ++ tl) = .ok (.index 0, footer.drop (k + 1) ++ tl) := by
  have hzero : ∀ j < 7, footer.drop j = 0 :: footer.drop (j + 1) := by decide
  have hne := footer_drop_append_ne (by omega : k < 8) htl
  rw [hzero k hk, List.cons_append] at hne ⊢
  exact decode_of_lt_64 (by decide) hne

end Sys2Proof

open Sys2Proof

/-- Settles O7: five bytes are enough for every kind, so UNPACK does not fail. -/
theorem everyFirstByteIsAnOpCode : Obligations.EveryFirstByteIsAnOpCode := by
  intro b0 rest hlen hne
  obtain ⟨hshort, -⟩ | ⟨i, left, hok, heffect⟩ := unpack_cases (kindOf b0) b0 rest
  · have := kind_length_le (kindOf b0)
    omega
  · exact ⟨i, left, (decode_cons hne).trans hok, heffect⟩

/-- Settles O8: with a byte after them the footer's bytes are one-byte INDEX op-codes, since no suffix of them is then the
footer. -/
theorem footerBytesElsewhereAreEightIndexOps : Obligations.FooterBytesElsewhereAreEightIndexOps := by
  refine ⟨fun x rest => ⟨fun k hk => decode_footer_drop_append hk (List.cons_ne_nil x rest), ?_⟩, decode_eq_endMark_iff⟩
  exact decode_of_lt_64 (by decide) (footer_drop_append_ne (k := 7) (by decide) (List.cons_ne_nil x rest))
end

section
/-! O9. In the ranges of a well-formed instruction every packed value is in 0..255, so its byte stands for it. -/

namespace Sys2Proof

theorem inRange_iff (lo hi v : Int) : inRange lo hi v = true ↔ lo ≤ v ∧ v ≤ hi := by simp [inRange]

theorem wf_diff_iff (dr dg db : Int) :
    (Instr.diff dr dg db).wf = true ↔ (-2 ≤ dr ∧ dr ≤ 1) ∧ (-2 ≤ dg ∧ dg ≤ 1) ∧ (-2 ≤ db ∧ db ≤ 1) := by
  simp [Instr.wf, inRange_iff, and_assoc]

theorem wf_luma_iff (dg drg dbg : Int) :
    (Instr.luma dg drg dbg).wf = true ↔ (-32 ≤ dg ∧ dg ≤ 31) ∧ (-8 ≤ drg ∧ drg ≤ 7) ∧ (-8 ≤ dbg ∧ dbg ≤ 7) := by
  simp [Instr.wf, inRange_iff, and_assoc]

theorem wf_run_iff (len : Nat) : (Instr.run len).wf = true ↔ 1 ≤ len ∧ len ≤ 62 := by simp [Instr.wf]

/-- R119: a byte packed from a value in 0..255 stands for that value. -/
theorem byteOf_toNat {v : Int} (h0 : 0 ≤ v) (h255 : v ≤ 255) : ((byteOf v).toNat : Int) = v := by
  rw [byteOf, BitVec.toNat_ofInt]
  omega

end Sys2Proof

open Sys2Proof

/-- Settles O9: each packed value is in 0..255. -/
theorem packedBytesAreTheTablesNumbers : Obligations.PackedBytesAreTheTablesNumbers := by
  refine ⟨fun idx => ⟨_, rfl, ?_⟩, fun dr dg db hwf => ⟨_, rfl, ?_⟩, fun dg drg dbg hwf => ⟨_, _, rfl, ?_, ?_⟩,
    fun len hwf => ⟨_, rfl, ?_⟩⟩
  · have := byteOf_toNat (v := idx.val) (by omega) (by omega)
    omega
  · obtain ⟨hr, hg, hb⟩ := (wf_diff_iff dr dg db).mp hwf
    exact byteOf_toNat (by omega) (by omega)
  · obtain ⟨hg, -, -⟩ := (wf_luma_iff dg drg dbg).mp hwf
    exact byteOf_toNat (by omega) (by omega)
  · obtain ⟨-, hr, hb⟩ := (wf_luma_iff dg drg dbg).mp hwf
    exact byteOf_toNat (by omega) (by omega)
  · obtain ⟨hpos, hmax⟩ := (wf_run_iff len).mp hwf
    have := byteOf_toNat (v := 192 + ((len : Int) - 1)) (by omega) (by omega)
    omega
end

section
/-! O3. ARITH's results (R70 to R72) as exact remainders modulo 256; a value in -128..127 is known from its remainder. -/

namespace Sys2Proof.Machine

theorem add8_toNat (a b : Byte) : (add8 a b).toNat = (a.toNat + b.toNat) % 256 := BitVec.toNat_add a b

theorem add8s_toNat (a : Byte) (d : Int) : ((add8s a d).toNat : Int) = ((a.toNat : Int) + d) % 256 := by
  rw [add8s, BitVec.toNat_ofInt]
  omega

theorem sub8_toNat (a b : Byte) : ((sub8 a b).toNat : Int) = ((a.toNat : Int) - b.toNat) % 256 := by
  rw [sub8, BitVec.toNat_sub]
  omega

@[simp] theorem add8_sub8 (a b : Byte) : add8 b (sub8 a b) = a := add_sub_cancel b a

theorem s8_emod (v : Byte) : s8 v % 256 = v.toNat := by
  have := v.isLt
  unfold s8
  split <;> omega

theorem s8_range (v : Byte) : -128 ≤ s8 v ∧ s8 v ≤ 127 := by
  have := v.isLt
  unfold s8
  split <;> omega

end Sys2Proof.Machine

open Sys2Proof Sys2Proof.Machine

/-- Settles O3, one lemma for each rule. -/
theorem wrappingArithmeticLaws : Obligations.WrappingArithmeticLaws :=
  ⟨add8_sub8, add8_toNat, add8s_toNat, sub8_toNat, fun v => ⟨s8_emod v, s8_range v⟩⟩
end

section
/-! O2, O4. The channel delta and the luma difference are the values in -128..127 of a known remainder modulo 256, and
two values less than 256 apart with the same remainder are equal. -/

namespace Sys2Proof.Machine

theorem add8s_eq_iff (p c : Byte) (d : Int) : add8s p d = c ↔ ((p.toNat : Int) + d) % 256 = c.toNat := by
  rw [← add8s_toNat, Int.natCast_inj, BitVec.toNat_inj]

theorem delta_range (c p : Byte) : -128 ≤ delta c p ∧ delta c p ≤ 127 := s8_range _

theorem delta_emod (c p : Byte) : delta c p % 256 = ((c.toNat : Int) - p.toNat) % 256 := by
  rw [delta, s8_emod, sub8_toNat]

theorem lumaDiff_range (d dg : Int) : -128 ≤ lumaDiff d dg ∧ lumaDiff d dg ≤ 127 := s8_range _

theorem lumaDiff_emod (d dg : Int) : lumaDiff d dg % 256 = (d - dg) % 256 := by
  rw [lumaDiff, s8_emod, BitVec.toNat_ofInt]
  omega

/-- R74: to fall in -8..7 only after a wrap, `d - dg` would have to be at least 249 away from 0; it is at most 159. -/
theorem lumaDiff_fits_iff {d dg : Int} (hd : -128 ≤ d ∧ d ≤ 127) (hdg : -32 ≤ dg ∧ dg ≤ 31) :
    (-8 ≤ lumaDiff d dg ∧ lumaDiff d dg ≤ 7) ↔ (-8 ≤ d - dg ∧ d - dg ≤ 7) := by
  have hrange := lumaDiff_range d dg
  have hemod := lumaDiff_emod d dg
  omega

theorem fitsLuma_iff (dr dg db : Int) : fitsLuma dr dg db = true ↔
    (-32 ≤ dg ∧ dg ≤ 31) ∧ (-8 ≤ lumaDiff dr dg ∧ lumaDiff dr dg ≤ 7) ∧ (-8 ≤ lumaDiff db dg ∧ lumaDiff db dg ≤ 7) := by
  simp only [fitsLuma, Bool.and_eq_true, inRange_iff, and_assoc]

end Sys2Proof.Machine

open Sys2Proof Sys2Proof.Machine

/-- Settles O2: `d` and the delta both lie in -128..127, and `add8s(p, d) = c` says that they have the same remainder. -/
theorem deltaIsTheUniqueStep : Obligations.DeltaIsTheUniqueStep := by
  refine fun c p => ⟨delta_range c p, fun d hlo hhi => ?_⟩
  have hc := c.isLt
  have hrange := delta_range c p
  have hemod := delta_emod c p
  rw [add8s_eq_iff]
  omega

/-- Settles O4: once the green delta fits, neither luma difference can fit by a wrap. -/
theorem lumaTestNeedsNoWrap : Obligations.LumaTestNeedsNoWrap := by
  intro dr dg db hr hr' _ _ hb hb'
  calc fitsLuma dr dg db = true
    _ ↔ (-32 ≤ dg ∧ dg ≤ 31) ∧ (-8 ≤ lumaDiff dr dg ∧ lumaDiff dr dg ≤ 7) ∧
        (-8 ≤ lumaDiff db dg ∧ lumaDiff db dg ≤ 7) := fitsLuma_iff dr dg db
    _ ↔ (-32 ≤ dg ∧ dg ≤ 31) ∧ (-8 ≤ dr - dg ∧ dr - dg ≤ 7) ∧ (-8 ≤ db - dg ∧ db - dg ≤ 7) :=
      and_congr_right fun hg =>
        and_congr (lumaDiff_fits_iff ⟨hr, hr'⟩ hg) (lumaDiff_fits_iff ⟨hb, hb'⟩ hg)
    _ ↔ _ := by simp only [and_assoc]
end

section
/-! O1. The hash in wrapping 8-bit arithmetic (R78). -/

open Sys2Proof Sys2Proof.Machine

/-- Settles O1: the wrapped sum is the exact one modulo 256, and 64 divides 256. -/
theorem hashIsTheSameInEightBits : Obligations.HashIsTheSameInEightBits := by
  intro p
  have hwrap : (p.r * 3 + p.g * 5 + p.b * 7 + p.a * 11 : Byte).toNat =
      (p.r.toNat * 3 + p.g.toNat * 5 + p.b.toNat * 7 + p.a.toNat * 11) % 256 := by
    simp [BitVec.toNat_add, BitVec.toNat_mul]
  rw [hwrap, Nat.mod_mod_of_dvd _ (by decide : 64 ∣ 256)]
  rfl
end

section
/-! O47, O20, O21. The completed op in the terms the statements use; what the selector can pick, whatever the order of its
tests; and that the pixel the picked op stands for is the one it was picked for. -/

namespace Sys2Proof.Machine

/-! ### A completed op -/

/-- R138, R147: with its bytes in the stream an op-code completes, on the pixel it stands for. -/
theorem exec_completes {i : Instr} {s : State} (hi : i ≠ .endMark) (hfit : i.length ≤ s.dec.rem) :
    ∃ t, exec i s = .next t ∧ OpEffect s t (opPixel i s.dec) i.pixels i.length := by
  rw [exec_eq_decodeOp hi, decodeOp_complete hfit]
  exact ⟨_, rfl, opEffect_retire s (opPixel i s.dec) i.pixels i.length⟩

/-- R88: after a completed op the slot of its pixel's hash holds the pixel. -/
theorem OpEffect.holds {s t : State} {p : Pixel} {k n : Nat} (h : OpEffect s t p k n) :
    cacheRead t.dec.cache (pixelHash p) = p := by
  rw [h.slots, if_pos rfl]

/-! ### What the selector can pick -/

/-- The ops SEL can pick for the pixel `p` under one order of its tests or the other (R111), each with the tests it
passed. -/
inductive Selectable (prev : Pixel) (cache : Cache) (len : Nat) (p : Pixel) : Instr → Prop
  | index (hit : cacheRead cache (pixelHash p) = p) : Selectable prev cache len p (encIndex p)
  | run (repeats : p = prev) : Selectable prev cache len p (encRun len)
  | diff (alpha : p.a = prev.a)
      (fits : fitsDiff (delta p.r prev.r) (delta p.g prev.g) (delta p.b prev.b) = true) :
      Selectable prev cache len p (encDiff prev p)
  | luma (alpha : p.a = prev.a)
      (fits : fitsLuma (delta p.r prev.r) (delta p.g prev.g) (delta p.b prev.b) = true) :
      Selectable prev cache len p (encLuma prev p)
  | rgb (alpha : p.a = prev.a) : Selectable prev cache len p (encRgb p)
  | rgba : Selectable prev cache len p (encRgba p)

theorem selectable_selectMiss (prev : Pixel) (cache : Cache) (len : Nat) (p : Pixel) :
    Selectable prev cache len p (selectMiss prev len p) := by
  unfold selectMiss
  split
  next halpha =>
    split
    next hrepeats => exact .run hrepeats
    next =>
      split
      next hdiff => exact .diff halpha hdiff
      next =>
        split
        next hluma => exact .luma halpha hluma
        next => exact .rgb halpha
  next => exact .rgba

theorem selectable_select (order : SelOrder) (prev : Pixel) (cache : Cache) (len : Nat) (p : Pixel) :
    Selectable prev cache len p (select order prev cache len p) := by
  have hprobed : Selectable prev cache len p
      (if (cacheProbe cache p).2 then encIndex p else selectMiss prev len p) := by
    split
    next hhit => exact .index ((cacheProbe_hit cache p).1 hhit)
    next => exact selectable_selectMiss prev cache len p
  cases order with
  | indexFirst => exact hprobed
  | runFirst =>
    rw [select]
    split
    next hrepeats => exact .run hrepeats
    next => exact hprobed

theorem Selectable.ne_endMark {prev : Pixel} {cache : Cache} {len : Nat} {p : Pixel} {i : Instr}
    (h : Selectable prev cache len p i) : i ≠ .endMark := by
  cases h with
  | _ => exact nofun

/-- R51: only the RUN of a repeated pixel can carry other than one pixel. -/
theorem Selectable.pixels_cases {prev : Pixel} {cache : Cache} {len : Nat} {p : Pixel} {i : Instr}
    (h : Selectable prev cache len p i) : i.pixels = 1 ∨ (p = prev ∧ i.pixels = len) := by
  cases h with
  | run repeats => exact .inr ⟨repeats, rfl⟩
  | _ => exact .inl rfl

/-! ### The mirror -/

/-- R73: adding the delta gives the channel back. -/
@[simp] theorem add8s_delta (c p : Byte) : add8s p (delta c p) = c := by
  have hc := c.isLt
  have hemod := delta_emod c p
  rw [add8s_eq_iff]
  omega

/-- R74, R75: so does adding the green delta and the luma difference, which may each have wrapped. -/
@[simp] theorem add8s_lumaDiff (c p : Byte) (dg : Int) : add8s p (dg + lumaDiff (delta c p) dg) = c := by
  have hc := c.isLt
  have hemod := delta_emod c p
  have hluma := lumaDiff_emod (delta c p) dg
  rw [add8s_eq_iff]
  omega

/-- R152: decoding the picked op with the encoder's `PREV` and `CACHE` gives the pixel it was picked for. -/
theorem Selectable.opPixel_eq {d : Dec} {len : Nat} {p : Pixel} {i : Instr}
    (h : Selectable d.prev d.cache len p i) : opPixel i d = p := by
  cases h with
  | index hit => exact hit
  | run repeats => exact repeats.symm
  | diff alpha => simp [encDiff, opPixel, diffPixel, ← alpha]
  | luma alpha => simp [encLuma, opPixel, lumaPixel, ← alpha]
  | rgb alpha => simp [encRgb, opPixel, rgbPixel, ← alpha]
  | rgba => rfl

end Sys2Proof.Machine

open Sys2Proof Sys2Proof.Machine

/-- Settles O47: whichever op was picked is no END, so it completes, and its pixel is the encoder's. -/
theorem decoderMirrorsTheSelectedOp : Obligations.DecoderMirrorsTheSelectedOp := by
  intro order len p s i hfit
  have hselectable : Selectable s.dec.prev s.dec.cache len p i := selectable_select order s.dec.prev s.dec.cache len p
  obtain ⟨t, hexec, heffect⟩ := exec_completes hselectable.ne_endMark hfit
  rw [hselectable.opPixel_eq] at heffect
  exact ⟨t, hexec, heffect⟩

/-- Settles O20: the op stands for the reset pixel, whose hash is 0. -/
theorem indexOfUnwrittenSlotWritesSlotZero : Obligations.IndexOfUnwrittenSlotWritesSlotZero := by
  intro idx s hrem hslot
  obtain ⟨t, hexec, heffect⟩ := exec_completes (i := .index idx) nofun hrem
  have hpixel : opPixel (.index idx) s.dec = ⟨0, 0, 0, 0⟩ := hslot
  have hhash : pixelHash ⟨0, 0, 0, 0⟩ = 0 := by decide
  rw [hpixel] at heffect
  refine ⟨t, hexec, heffect.prev, hhash ▸ heffect.holds, fun i hi => ?_⟩
  rw [heffect.slots, hhash, if_neg hi]

/-- Settles O21: both engines end an op-code step with the same update; at reset `PREV`'s slot 53 holds another pixel. -/
theorem cacheHoldsTheProcessedPixel : Obligations.CacheHoldsTheProcessedPixel := by
  refine ⟨fun i s hi hfit => ?_, fun e raw => ⟨rfl, cacheRead_cacheUpdate_self _ _⟩, by decide⟩
  obtain ⟨t, hexec, heffect⟩ := exec_completes hi hfit
  exact ⟨t, _, hexec, heffect, heffect.prev, heffect.holds⟩
end

section
/-! O54. Everything a step of the machine can do is a step of one engine, the start of a call, or the passing of a turn;
each keeps the invariant of the engine it concerns and leaves the other engine. -/

namespace Sys2Proof.Machine

/-! ### The decoder -/

/-- R99: a failing check's offset is in the stream, or 0 where the stream is empty. -/
theorem headerError_le_length {bytes : List Byte} {o : Nat} (h : headerError bytes = some o) : o ≤ bytes.length := by
  unfold headerError at h
  split at h
  next => cases h; exact Nat.zero_le _
  next =>
    split at h
    next => cases h; exact Nat.sub_le _ _
    next hlen =>
      split at h
      next => cases h; omega
      next =>
        split at h
        next => cases h; omega
        next => cases h

/-- Everything a step at an op boundary can do, with the footer where it ends the call (R135). -/
theorem opStep_next_cases {s t : State} (h : opStep s = .next t) :
    t = raiseDecodeError s.dec.off s ∨
      (s.dec.rest = footer ∧ t = { s with dec := { s.dec with status := .done } }) ∨
      ∃ p k n, 1 ≤ n ∧ n ≤ s.dec.rem ∧ t = { s with dec := s.dec.retire p k n } := by
  unfold opStep at h
  split at h
  next => cases h; exact .inl rfl
  next =>
    split at h
    next i left hdecode =>
      by_cases hi : i = .endMark
      · subst hi
        cases h
        exact .inr (.inl ⟨((decode_eq_endMark_iff _ _).1 hdecode).1, rfl⟩)
      · rw [exec_eq_decodeOp hi] at h
        obtain ⟨-, hraise⟩ | ⟨hfit, hretire⟩ := decodeOp_cases i.length i.pixels (opPixel i) s
        · cases hraise.symm.trans h; exact .inl rfl
        · cases hretire.symm.trans h; exact .inr (.inr ⟨_, _, _, instr_length_pos i, hfit, rfl⟩)
    next => cases h; exact .inl rfl

/-- Everything a decoder step can do: only while the call runs, the header step or a step at an op boundary. -/
theorem decStep_cases {s t : State} (h : decStep s = .next t) :
    s.dec.status = .running ∧
      ((s.dec.headerOk = false ∧ headerStep s = .next t) ∨ (s.dec.headerOk = true ∧ opStep s = .next t)) := by
  unfold decStep at h
  split at h
  next => cases h
  next hbusy =>
    refine ⟨(Dec.busy_iff s.dec).1 (Bool.eq_true_of_not_eq_false hbusy), ?_⟩
    split at h
    next hheader => exact .inr ⟨hheader, h⟩
    next hheader => exact .inl ⟨Bool.eq_false_of_not_eq_true hheader, h⟩

theorem Dec.inv_of_live {d : Dec} (h : d.Live) (hs : d.status ≠ .failed) : d.Inv :=
  ⟨fun _ => h, fun hfailed => absurd hfailed hs⟩

theorem Dec.inv_raise {d : Dec} {o : Nat} (ho : o ≤ d.stream.length) : (d.raise o).Inv :=
  ⟨fun hs => absurd rfl hs, fun _ => ho⟩

/-- R100: a decoder that has just accepted its header is live, at its first op boundary. -/
theorem Dec.live_acceptHeader {d : Dec} (h : headerError d.stream = none) : d.acceptHeader.Live where
  slots := slotSound_cacheReset
  beforeHeader := nofun
  offRange := fun _ => ⟨Nat.le_refl _, Nat.le_of_lt (legal_of_headerError_eq_none h).1⟩
  headerKept := fun _ => ⟨h, rfl⟩
  beforeFirstOp := fun _ => ⟨rfl, rfl, rfl⟩
  afterFirstOp := fun hlt => absurd hlt (Nat.lt_irrefl _)
  atDone := nofun

/-- R88, R89: a completed op that fits the stream keeps the decoder live. -/
theorem Dec.Live.retire {d : Dec} (h : d.Live) (hh : d.headerOk = true) (hs : d.status = .running) {p : Pixel}
    {k n : Nat} (hn : 1 ≤ n) (hfit : n ≤ d.rem) : (d.retire p k n).Live := by
  obtain ⟨hbase, hend⟩ := h.offRange hh
  rw [Dec.rem] at hfit
  exact {
    slots := slotSound_cacheUpdate _ _ h.slots
    beforeHeader := by simp [hh]
    offRange := fun _ => by rw [Dec.retire_off, Dec.retire_stream]; omega
    headerKept := h.headerKept
    beforeFirstOp := fun hle => by rw [Dec.retire_off] at hle; omega
    afterFirstOp := fun _ => holdsPrev_cacheUpdate _ _
    atDone := by simp [hs] }

/-- R148: ending the call at the footer keeps the decoder live. -/
theorem Dec.Live.finish {d : Dec} (h : d.Live) (hh : d.headerOk = true) (hrest : d.rest = footer) :
    ({ d with status := .done } : Dec).Live where
  slots := h.slots
  beforeHeader := by simp [hh]
  offRange := h.offRange
  headerKept := h.headerKept
  beforeFirstOp := h.beforeFirstOp
  afterFirstOp := h.afterFirstOp
  atDone := fun _ => hrest

/-- A decoder step keeps the decoder's invariant and leaves the encoder (R40). -/
theorem decStep_keeps_inv {s t : State} (hinv : s.dec.Inv) (h : decStep s = .next t) :
    t.dec.Inv ∧ t.enc = s.enc := by
  obtain ⟨hs, ⟨-, hheader⟩ | ⟨hh, hop⟩⟩ := decStep_cases h
  · obtain ⟨o, herror, hraise⟩ | ⟨hnone, haccept⟩ := headerStep_cases s
    · cases hraise.symm.trans hheader
      exact ⟨Dec.inv_raise (headerError_le_length herror), rfl⟩
    · cases haccept.symm.trans hheader
      exact ⟨Dec.inv_of_live (Dec.live_acceptHeader hnone) nofun, rfl⟩
  · have hlive : s.dec.Live := hinv.live (by simp [hs])
    obtain rfl | ⟨hrest, rfl⟩ | ⟨p, k, n, hn, hfit, rfl⟩ := opStep_next_cases hop
    · exact ⟨Dec.inv_raise (hlive.offRange hh).2, rfl⟩
    · exact ⟨Dec.inv_of_live (hlive.finish hh hrest) nofun, rfl⟩
    · exact ⟨Dec.inv_of_live (hlive.retire hh hs hn hfit) (by simp [hs]), rfl⟩

/-! ### The encoder -/

/-- R110: in a 3-channel call every resolved pixel is opaque. -/
theorem resolve_a_of_three {channels : Byte} (h : channels = 3) (p : Pixel) : (resolve channels p).a = 255 := by
  rw [resolve, if_pos h]

theorem runLength_le_length (prev : Pixel) (upcoming : List Pixel) : runLength prev upcoming ≤ upcoming.length :=
  (Nat.min_le_right _ _).trans (List.takeWhile_sublist _).length_le

/-- R114: a first pixel that repeats `PREV` makes a run of at least one. -/
theorem runLength_pos {prev : Pixel} {upcoming : List Pixel} (h : upcoming.head? = some prev) :
    1 ≤ runLength prev upcoming := by
  obtain ⟨tl, rfl⟩ := List.head?_eq_some_iff.1 h
  simp [runLength, Config.runMax]

theorem Enc.upcoming_length_le (e : Enc) : e.upcoming.length ≤ e.n - e.pos := by
  rw [Enc.upcoming, List.length_map]
  exact List.length_take_le _ _

/-- The first of the unconsumed pixels is the resolved record at `pos`. -/
theorem Enc.upcoming_head? {e : Enc} {raw : Pixel} (hlt : e.pos < e.n) (hraw : e.pix[e.pos]? = some raw) :
    e.upcoming.head? = some (resolve e.cfg.channels raw) := by
  have hne : e.n - e.pos ≠ 0 := by omega
  simp [Enc.upcoming, List.head?_take, hne, hraw]

/-- R14, R114: the chosen op carries at least one pixel, and no more than are left. -/
theorem Enc.choose_pixels {e : Enc} {raw : Pixel} (hlt : e.pos < e.n) (hraw : e.pix[e.pos]? = some raw) :
    1 ≤ (e.choose (resolve e.cfg.channels raw)).pixels ∧
      e.pos + (e.choose (resolve e.cfg.channels raw)).pixels ≤ e.n := by
  obtain hone | ⟨hrepeats, hlen⟩ := (selectable_select selOrder e.prev e.cache (runLength e.prev e.upcoming)
    (resolve e.cfg.channels raw)).pixels_cases
  · rw [Enc.choose, hone]
    exact ⟨Nat.le_refl 1, hlt⟩
  · have hpos := runLength_pos (hrepeats ▸ Enc.upcoming_head? hlt hraw)
    have hle := (runLength_le_length e.prev e.upcoming).trans e.upcoming_length_le
    rw [Enc.choose, hlen]
    omega

/-- R184: an encode call on a legal input starts live. -/
theorem Enc.live_start {cfg : ImageConfig} {pix : List Pixel} (h : LegalInput cfg pix) : (Enc.start cfg pix).Live where
  slots := slotSound_cacheReset
  posRange := Nat.zero_le _
  count := h.1
  beforeFirst := fun _ => ⟨rfl, rfl⟩
  afterFirst := fun hpos => absurd rfl hpos
  opaqueAlpha := fun _ => rfl
  beforeHeader := fun _ => ⟨rfl, rfl⟩
  legal := fun _ => h.2
  atDone := nofun

/-- R97: the header consumes nothing. -/
theorem Enc.Live.emitHeader {e : Enc} (h : e.Live) (hp : e.phase = .header) : e.emitHeader.Live where
  slots := h.slots
  posRange := h.posRange
  count := h.count
  beforeFirst := h.beforeFirst
  afterFirst := h.afterFirst
  opaqueAlpha := h.opaqueAlpha
  beforeHeader := by simp
  legal := fun _ => h.legal (by simp [hp])
  atDone := nofun

/-- R88, R89, R110: an op-code step keeps the encoder live; it advances by at least one pixel, within the input. -/
theorem Enc.Live.opStep {e : Enc} (h : e.Live) (hp : e.phase = .ops) {raw : Pixel} (hlt : e.pos < e.n)
    (hraw : e.pix[e.pos]? = some raw) : (e.opStep raw).Live := by
  obtain ⟨hpos, hle⟩ := Enc.choose_pixels hlt hraw
  exact {
    slots := slotSound_cacheUpdate _ _ h.slots
    posRange := hle
    count := h.count
    beforeFirst := fun hzero => by rw [Enc.opStep, Enc.retire_pos] at hzero; omega
    afterFirst := fun _ => holdsPrev_cacheUpdate _ _
    opaqueAlpha := fun hthree => resolve_a_of_three hthree raw
    beforeHeader := by simp [Enc.opStep, hp]
    legal := h.legal
    atDone := by simp [Enc.opStep, hp] }

/-- R98, R122: the footer is appended once the input is consumed. -/
theorem Enc.Live.emitFooter {e : Enc} (h : e.Live) (hp : e.phase = .ops) (hle : e.n ≤ e.pos) : e.emitFooter.Live where
  slots := h.slots
  posRange := h.posRange
  count := h.count
  beforeFirst := h.beforeFirst
  afterFirst := h.afterFirst
  opaqueAlpha := h.opaqueAlpha
  beforeHeader := by simp
  legal := fun _ => h.legal (by simp [hp])
  atDone := fun _ => Nat.le_antisymm h.posRange hle

theorem Enc.inv_of_live {e : Enc} (h : e.Live) : e.Inv := fun _ => h

/-- Of an encoder without a run the invariant says nothing (log 24). -/
theorem Enc.inv_refuse (e : Enc) (b : Breach) : (e.refuse b).Inv := fun hrun => absurd rfl (hrun b)

/-- An encoder step keeps the encoder's invariant. -/
theorem encStep_keeps_inv {s t : State} (hinv : s.enc.Inv) (h : encStep s = .next t) : t.enc.Inv := by
  obtain ⟨hp, rfl⟩ | ⟨hp, hlt, raw, hraw, rfl⟩ | ⟨hp, hle, rfl⟩ | ⟨-, -, -, rfl⟩ := encStep_cases h
  · exact Enc.inv_of_live ((hinv (by simp [hp])).emitHeader hp)
  · exact Enc.inv_of_live ((hinv (by simp [hp])).opStep hp hlt hraw)
  · exact Enc.inv_of_live ((hinv (by simp [hp])).emitFooter hp hle)
  · exact Enc.inv_refuse s.enc .pixelCount

/-- R184: the start of an encode call leaves a live encoder, or one without a run. -/
theorem startEncode_inv (cfg : ImageConfig) (pix : List Pixel) (s : State) : (startEncode cfg pix s).enc.Inv := by
  cases hbreach : breach cfg pix with
  | some b =>
    rw [startEncode_breach hbreach]
    exact Enc.inv_refuse s.enc b
  | none =>
    have hlegal := (breach_eq_none_iff cfg pix).1 hbreach
    rw [startEncode_legal hlegal]
    exact Enc.inv_of_live (Enc.live_start hlegal)

/-- R183: a decode call starts live. -/
theorem Dec.inv_start (bytes : List Byte) : (Dec.start bytes).Inv :=
  Dec.inv_of_live ((Dec.live_iff_of_not_headerOk rfl).2 ⟨rfl, rfl, rfl, rfl, rfl⟩) nofun

/-! ### The machine -/

/-- A step is a step of one engine, the start of a call, or a turn that passes; `more` is what is left of the host's
list when it is made. -/
theorem step_cases {s t : State} (h : step s = .next t) :
    ∃ more : List Input,
      encStep { s with inputs := more } = .next t ∨
      decStep { s with inputs := more } = .next t ∨
      (∃ cfg pix, t = startEncode cfg pix { s with inputs := more }) ∨
      (∃ bytes, t = startDecode bytes { s with inputs := more }) ∨
      t = { s with inputs := more } := by
  unfold step at h
  split at h
  next =>
    unfold moveBusy at h
    split at h
    next => exact ⟨s.inputs, .inr (.inl h)⟩
    next => exact ⟨s.inputs, .inl h⟩
  next _ more _ =>
    unfold takeInput at h
    split at h
    next cfg pix _ =>
      split at h
      next => exact ⟨s.inputs, .inl h⟩
      next => cases h; exact ⟨more, .inr (.inr (.inl ⟨cfg, pix, rfl⟩))⟩
    next bytes _ =>
      split at h
      next => exact ⟨s.inputs, .inr (.inl h)⟩
      next => cases h; exact ⟨more, .inr (.inr (.inr (.inl ⟨bytes, rfl⟩)))⟩
    next =>
      split at h
      next => exact ⟨more, .inl h⟩
      next => cases h; exact ⟨more, .inr (.inr (.inr (.inr rfl)))⟩
    next =>
      split at h
      next => exact ⟨more, .inr (.inl h)⟩
      next => cases h; exact ⟨more, .inr (.inr (.inr (.inr rfl)))⟩

end Sys2Proof.Machine

open Sys2Proof.Machine

/-- Settles O54: the engine that moves or starts meets its invariant again, and the other one is as it was. -/
theorem stepKeepsTheInvariant : Obligations.StepKeepsTheInvariant := by
  intro s t hinv h
  obtain ⟨more, henc | hdec | ⟨cfg, pix, rfl⟩ | ⟨bytes, rfl⟩ | rfl⟩ := step_cases h
  · exact ⟨encStep_keeps_inv (s := { s with inputs := more }) hinv.enc henc, encStep_dec henc ▸ hinv.dec⟩
  · obtain ⟨hkeeps, hframe⟩ := decStep_keeps_inv (s := { s with inputs := more }) hinv.dec hdec
    exact ⟨hframe ▸ hinv.enc, hkeeps⟩
  · exact ⟨startEncode_inv cfg pix _, (startEncode_dec cfg pix { s with inputs := more }).symm ▸ hinv.dec⟩
  · exact ⟨hinv.enc, Dec.inv_start bytes⟩
  · exact ⟨hinv.enc, hinv.dec⟩
end

section
/-! O28, O29. The decoder's first step (R99, R100): the offset each failing header check is answered with, the values an
accepted header gives, and the step that makes the checks. -/

namespace Sys2Proof.Machine

/-! ### The bytes of the header -/

theorem getElem?_eq_some_byteAt {bytes : List Byte} {k : Nat} (h : k < bytes.length) :
    bytes[k]? = some (byteAt bytes k) := by
  simp [byteAt, h]

theorem append_byte_toNat {n : Nat} (hi : BitVec n) (lo : Byte) : (hi ++ lo).toNat = hi.toNat * 2 ^ 8 + lo.toNat := by
  rw [BitVec.toNat_append, ← Nat.shiftLeft_add_eq_or_of_lt lo.isLt, Nat.shiftLeft_eq]

/-- R30: the value of a big-endian field. -/
theorem word32At_toNat (bytes : List Byte) (k : Nat) :
    (word32At bytes k).toNat = (byteAt bytes k).toNat * 2 ^ 24 + (byteAt bytes (k + 1)).toNat * 2 ^ 16 +
      (byteAt bytes (k + 2)).toNat * 2 ^ 8 + (byteAt bytes (k + 3)).toNat := by
  rw [word32At, append_byte_toNat, append_byte_toNat, append_byte_toNat]
  ring

/-! ### The four checks -/

section
variable {bytes : List Byte}

theorem length_ge_of_magic (hmagic : bytes.take 4 = magic) : 4 ≤ bytes.length := by
  have hlen : min 4 bytes.length = 4 := by rw [← List.length_take, hmagic]; rfl
  omega

theorem headerError_of_no_magic (h : bytes.length < 4 ∨ bytes.take 4 ≠ magic) : headerError bytes = some 0 := if_pos h

/-- Past the first check, which the magic passes. -/
theorem headerError_of_magic (hmagic : bytes.take 4 = magic) :
    headerError bytes =
      if bytes.length ≤ 14 then some (bytes.length - 1)
      else if legalChannels (byteAt bytes 12) = false then some 12
      else if legalColorspace (byteAt bytes 13) = false then some 13
      else none :=
  if_neg (not_or.2 ⟨Nat.not_lt.2 (length_ge_of_magic hmagic), not_not.2 hmagic⟩)

theorem headerError_of_short (hmagic : bytes.take 4 = magic) (hshort : bytes.length ≤ 14) :
    headerError bytes = some (bytes.length - 1) := by
  rw [headerError_of_magic hmagic, if_pos hshort]

theorem headerError_of_channels (hmagic : bytes.take 4 = magic) (hlong : 14 < bytes.length)
    (h3 : bytes[12]? ≠ some 3) (h4 : bytes[12]? ≠ some 4) : headerError bytes = some 12 := by
  rw [getElem?_eq_some_byteAt (by omega), ne_eq, Option.some_inj] at h3 h4
  have hchannels : legalChannels (byteAt bytes 12) = false := decide_eq_false (not_or.2 ⟨h3, h4⟩)
  rw [headerError_of_magic hmagic, if_neg (Nat.not_le.2 hlong), if_pos hchannels]

theorem headerError_of_colorspace (hmagic : bytes.take 4 = magic) (hlong : 14 < bytes.length)
    (h34 : bytes[12]? = some 3 ∨ bytes[12]? = some 4)
    (h0 : bytes[13]? ≠ some 0) (h1 : bytes[13]? ≠ some 1) : headerError bytes = some 13 := by
  rw [getElem?_eq_some_byteAt (by omega), Option.some_inj, Option.some_inj] at h34
  rw [getElem?_eq_some_byteAt (by omega), ne_eq, Option.some_inj] at h0 h1
  have hchannels : legalChannels (byteAt bytes 12) = true := decide_eq_true h34
  have hcolorspace : legalColorspace (byteAt bytes 13) = false := decide_eq_false (not_or.2 ⟨h0, h1⟩)
  rw [headerError_of_magic hmagic, if_neg (Nat.not_le.2 hlong), hchannels, hcolorspace]
  rfl

end

/-! ### The step that makes them -/

section
variable {s : State} {more : List Input} (hmoves : DecMoves s more) (hh : s.dec.headerOk = false)
include hmoves hh

theorem step_eq_headerStep : step s = headerStep { s with inputs := more } := by
  have hbusy : s.dec.busy = true := (Dec.busy_iff s.dec).2 hmoves.1
  rw [step_of_decMoves hmoves]
  simp [decStep, hbusy, hh]

/-- R99: the first step raises the offset of the check that fails. -/
theorem step_raises_headerError {o : Nat} (ho : headerError s.dec.stream = some o) :
    ∃ t, step s = .next t ∧ Raised { s with inputs := more } t o := by
  refine ⟨raiseDecodeError o { s with inputs := more }, ?_, raised_raiseDecodeError _ o⟩
  rw [step_eq_headerStep hmoves hh, headerStep, ho]

/-- R100: the first step accepts a header that passes. -/
theorem step_accepts_header (ho : headerError s.dec.stream = none) :
    step s = .next { s with dec := s.dec.acceptHeader, inputs := more } := by
  rw [step_eq_headerStep hmoves hh, headerStep, ho]

end

end Sys2Proof.Machine

open Sys2Proof.Machine

/-- Settles O28: each of the four premises decides the first failing check, whose offset the first step raises. -/
theorem headerChecksInOrder : Obligations.HeaderChecksInOrder := by
  intro s more hmoves hh
  refine ⟨fun h => ?_, fun hmagic hshort => ?_, fun hmagic hlong h3 h4 => ?_, fun hmagic hlong h34 h0 h1 => ?_⟩
  · exact step_raises_headerError hmoves hh (headerError_of_no_magic h)
  · exact step_raises_headerError hmoves hh (headerError_of_short hmagic hshort)
  · exact step_raises_headerError hmoves hh (headerError_of_channels hmagic hlong h3 h4)
  · exact step_raises_headerError hmoves hh (headerError_of_colorspace hmagic hlong h34 h0 h1)

/-- Settles O29: the accepted decoder is R23's reset state but for the parsed values and the offset. -/
theorem acceptedHeaderSetsConfigAndOff : Obligations.AcceptedHeaderSetsConfigAndOff := by
  intro s more hmoves hh hpass
  exact ⟨_, step_accepts_header hmoves hh hpass, word32At_toNat s.dec.stream 4, word32At_toNat s.dec.stream 8, rfl, rfl,
    rfl, rfl, cacheRead_cacheReset, rfl, rfl, rfl, rfl, rfl, rfl⟩
end

section
/-! O36. The two emissions around the op-codes (R97, R98), each a step of its own. -/

namespace Sys2Proof.Machine

theorem Enc.busy_iff (e : Enc) : e.busy = true ↔ e.phase = .header ∨ e.phase = .ops := decide_eq_true_iff

theorem encStep_of_header {s : State} (h : s.enc.phase = .header) :
    encStep s = .next { s with enc := s.enc.emitHeader } := by
  simp [encStep, h]

theorem encStep_of_consumed {s : State} (h : s.enc.phase = .ops) (hpos : s.enc.n ≤ s.enc.pos) :
    encStep s = .next { s with enc := s.enc.emitFooter } := by
  simp [encStep, h, Nat.not_lt.2 hpos]

end Sys2Proof.Machine

open Sys2Proof.Machine

/-- Settles O36: the step is the running encode call's own, which emits the header in its first phase and the footer
once the input is consumed. -/
theorem encoderEmitsHeaderAndFooter : Obligations.EncoderEmitsHeaderAndFooter := by
  intro s more hmoves
  refine ⟨fun hphase => ?_, fun hphase hpos => ?_⟩
  · have hstep := step_of_encMoves hmoves ((Enc.busy_iff s.enc).2 (.inl hphase))
    exact ⟨_, hstep.trans (encStep_of_header hphase), rfl, rfl, rfl⟩
  · have hstep := step_of_encMoves hmoves ((Enc.busy_iff s.enc).2 (.inr hphase))
    exact ⟨_, hstep.trans (encStep_of_consumed hphase hpos.ge), rfl, rfl, rfl, rfl⟩
end

section
/-! O33, O37, O38, O39. The selector SEL in this hardware's order (R111): one equation for each test it can stop at; and
what is known of a selected RUN or RGBA literal, and of the fields of any selected op. -/

namespace Sys2Proof.Machine

section
variable {prev p : Pixel} {cache : Cache} {len : Nat}

theorem cacheProbe_miss (c : Cache) (p : Pixel) : (cacheProbe c p).2 = false ↔ cacheRead c (pixelHash p) ≠ p := by
  rw [ne_eq, ← cacheProbe_hit, Bool.not_eq_true]

/-! ### One equation for each test -/

theorem select_of_hit (hhit : cacheRead cache (pixelHash p) = p) :
    select .indexFirst prev cache len p = encIndex p :=
  if_pos ((cacheProbe_hit cache p).2 hhit)

theorem select_of_miss (hmiss : cacheRead cache (pixelHash p) ≠ p) :
    select .indexFirst prev cache len p = selectMiss prev len p :=
  if_neg (mt (cacheProbe_hit cache p).1 hmiss)

theorem selectMiss_of_alpha (halpha : p.a ≠ prev.a) : selectMiss prev len p = encRgba p := if_neg halpha

theorem selectMiss_of_repeat (hrepeats : p = prev) : selectMiss prev len p = encRun len := by
  rw [selectMiss, if_pos (congrArg Pixel.a hrepeats), if_pos hrepeats]

/-- Past the alpha and the run test the two delta tests decide; the run length has no part in it. -/
theorem selectMiss_of_change (halpha : p.a = prev.a) (hchange : p ≠ prev) :
    selectMiss prev len p =
      if fitsDiff (delta p.r prev.r) (delta p.g prev.g) (delta p.b prev.b) then encDiff prev p
      else if fitsLuma (delta p.r prev.r) (delta p.g prev.g) (delta p.b prev.b) then encLuma prev p
      else encRgb p := by
  rw [selectMiss, if_pos halpha, if_neg hchange]

/-- R76 as one row of bounds. -/
theorem fitsDiff_iff_bounds (dr dg db : Int) : fitsDiff dr dg db = true ↔
    -2 ≤ dr ∧ dr ≤ 1 ∧ -2 ≤ dg ∧ dg ≤ 1 ∧ -2 ≤ db ∧ db ≤ 1 := by
  simp only [fitsDiff, Bool.and_eq_true, inRange_iff, and_assoc]

/-- R77 as one row of bounds. -/
theorem fitsLuma_iff_bounds (dr dg db : Int) : fitsLuma dr dg db = true ↔
    -32 ≤ dg ∧ dg ≤ 31 ∧ -8 ≤ lumaDiff dr dg ∧ lumaDiff dr dg ≤ 7 ∧ -8 ≤ lumaDiff db dg ∧ lumaDiff db dg ≤ 7 := by
  simp only [fitsLuma_iff, and_assoc]

/-! ### What a selected op says -/

/-- R111: only a repeated pixel is sent as RUN, under either order. -/
theorem Selectable.eq_prev_of_run {n : Nat} (h : Selectable prev cache len p (.run n)) : p = prev := by
  generalize hi : Instr.run n = i at h
  cases h with
  | run repeats => exact repeats
  | _ => cases hi

/-- R112: with `PREV`'s alpha a cache miss is never sent as RGBA. -/
theorem selectMiss_ne_rgba (halpha : p.a = prev.a) (r g b a : Byte) : selectMiss prev len p ≠ .rgba r g b a := by
  by_cases hrepeats : p = prev
  · rw [selectMiss_of_repeat hrepeats]
    exact nofun
  · rw [selectMiss_of_change halpha hrepeats]
    split
    next => exact nofun
    next =>
      split
      next => exact nofun
      next => exact nofun

/-- R119: the tests an op passed bound its fields; of a RUN its length must be known to be in range. -/
theorem Selectable.wf {i : Instr} (h : Selectable prev cache len p i) (hlen : p = prev → 1 ≤ len ∧ len ≤ 62) :
    i.wf = true := by
  cases h with
  | run repeats => exact (wf_run_iff len).2 (hlen repeats)
  | diff _ fits => exact fits
  | luma _ fits => exact fits
  | _ => rfl

end

/-- What the encoder chooses is what SEL picks in this hardware's order (D4). -/
theorem Enc.choose_eq (e : Enc) (p : Pixel) :
    e.choose p = select .indexFirst e.prev e.cache (runLength e.prev e.upcoming) p := rfl

theorem Enc.selectable_choose (e : Enc) (p : Pixel) :
    Selectable e.prev e.cache (runLength e.prev e.upcoming) p (e.choose p) := selectable_select selOrder _ _ _ _

end Sys2Proof.Machine

open Sys2Proof Sys2Proof.Machine

/-- Settles O33: the equations of the tests, in their order. -/
theorem selectorTakesTheFirstTest : Obligations.SelectorTakesTheFirstTest := by
  intro e p
  simp only [Enc.choose_eq, ← fitsDiff_iff_bounds, ← fitsLuma_iff_bounds]
  refine ⟨select_of_hit, fun hmiss halpha => ?_, fun hmiss hrepeats => ?_, fun hmiss halpha hchange hdiff => ?_,
    fun hmiss halpha hchange hdiff hluma => ?_, fun hmiss halpha hchange hdiff hluma => ?_⟩
  · rw [select_of_miss hmiss, selectMiss_of_alpha halpha, encRgba]
  · rw [select_of_miss hmiss, selectMiss_of_repeat hrepeats, encRun]
  · rw [select_of_miss hmiss, selectMiss_of_change halpha hchange, if_pos hdiff, encDiff]
  · rw [select_of_miss hmiss, selectMiss_of_change halpha hchange, if_neg hdiff, if_pos hluma, encLuma]
  · rw [select_of_miss hmiss, selectMiss_of_change halpha hchange, if_neg hdiff, if_neg hluma, encRgb]

/-- Settles O37: where the pixel repeats `PREV` the measured run has at least that pixel, and at most 62. -/
theorem selectedOpsAreWellFormed : Obligations.SelectedOpsAreWellFormed := by
  intro order e raw hlt hraw
  refine (selectable_select order _ _ _ _).wf fun hrepeats => ⟨?_, Nat.min_le_left _ _⟩
  exact runLength_pos (hrepeats ▸ Enc.upcoming_head? hlt hraw)

/-- Settles O38: after the first step `PREV` stands in its slot (R88), so that a repeated pixel is a hit and is sent as
INDEX. -/
theorem runOnlyAtTheFirstStep : Obligations.RunOnlyAtTheFirstStep := by
  intro e p len hlive hpos hrun
  have hrepeats : p = e.prev := (hrun ▸ e.selectable_choose p).eq_prev_of_run
  have hhit : cacheRead e.cache (pixelHash p) = p := hrepeats ▸ hlive.afterFirst hpos
  rw [Enc.choose_eq, select_of_hit hhit] at hrun
  cases hrun

/-- Settles O39: in a 3-channel call the resolved pixel and `PREV` both have alpha 255. -/
theorem threeChannelsNeverRgba : Obligations.ThreeChannelsNeverRgba := by
  intro e raw r g b a hlive hthree
  have halpha : (resolve e.cfg.channels raw).a = e.prev.a :=
    (resolve_a_of_three hthree raw).trans (hlive.opaqueAlpha hthree).symm
  rw [Enc.choose_eq]
  by_cases hhit : cacheRead e.cache (pixelHash (resolve e.cfg.channels raw)) = resolve e.cfg.channels raw
  · rw [select_of_hit hhit]
    exact nofun
  · rw [select_of_miss hhit]
    exact selectMiss_ne_rgba halpha r g b a
end

section
/-! O49, O52. A whole encode call as an induction over its op-code steps, packaged once: what the emitted header
establishes and every op-code step keeps holds when the footer is emitted. Then the two facts it is used for: the op-codes
take at most 5 bytes a pixel, and what the streaming build would still make of the unconsumed pixels stays the same. -/

namespace Sys2Proof.Machine

/-! ### The induction over an encode call -/

/-- The encoder stands before an op-code step on the record `raw` (R120). -/
structure Enc.AtRecord (e : Enc) (raw : Pixel) : Prop where
  live : e.Live
  phase : e.phase = .ops
  before : e.pos < e.n
  record : e.pix[e.pos]? = some raw

/-- R184: below `N` there is a record at `pos`. -/
theorem Enc.Live.exists_record {e : Enc} (h : e.Live) (hlt : e.pos < e.n) : ∃ raw, e.pix[e.pos]? = some raw :=
  ⟨_, List.getElem?_eq_getElem (h.count.symm ▸ hlt)⟩

/-- The op-code steps and the footer, one step for each unconsumed pixel being enough (R122): what every op-code step keeps
still holds once the input is consumed. -/
theorem encodeRun_ops {P : Enc → Prop} (hkeeps : ∀ e raw, e.AtRecord raw → P e → P (e.opStep raw))
    {k : Nat} {s : State} (hlive : s.enc.Live) (hphase : s.enc.phase = .ops) (hk : s.enc.n - s.enc.pos < k)
    (hP : P s.enc) :
    ∃ e, encodeRun k s = .next { s with enc := e.emitFooter } ∧ e.pos = e.n ∧ P e := by
  induction k generalizing s with
  | zero => omega
  | succ k ih =>
    have hbusy : s.enc.busy = true := (Enc.busy_iff s.enc).2 (.inr hphase)
    by_cases hlt : s.enc.pos < s.enc.n
    · obtain ⟨raw, hraw⟩ := hlive.exists_record hlt
      have hstep := encStep_record hphase hlt hraw
      have hprogress : s.enc.n - (s.enc.opStep raw).pos < k := by
        have hone := (Enc.choose_pixels hlt hraw).1
        rw [Enc.opStep, Enc.retire_pos]
        omega
      rw [encodeRun_succ_of_step k hbusy hstep]
      exact ih (s := { s with enc := s.enc.opStep raw }) (hlive.opStep hphase hlt hraw) hphase hprogress
        (hkeeps s.enc raw ⟨hlive, hphase, hlt, hraw⟩ hP)
    · have hstep := encStep_footer hphase (Nat.le_of_not_lt hlt)
      refine ⟨s.enc, ?_, Nat.le_antisymm hlive.posRange (Nat.le_of_not_lt hlt), hP⟩
      rw [encodeRun_succ_of_step k hbusy hstep]
      exact encodeRun_of_not_busy k rfl

/-- R123: a whole encode call on a legal input. What the header establishes and every op-code step keeps holds of the
encoder whose output, with the footer, is the call's result. -/
theorem encodeCall_induction {P : Enc → Prop} {cfg : ImageConfig} {pix : List Pixel} (hlegal : LegalInput cfg pix)
    (hstart : P (Enc.start cfg pix).emitHeader) (hkeeps : ∀ e raw, e.AtRecord raw → P e → P (e.opStep raw)) :
    ∃ e, encodeCall cfg pix = some (e.out ++ footer) ∧ e.pos = e.n ∧ P e := by
  obtain ⟨e, hrun, hpos, hP⟩ := encodeRun_ops (k := pix.length + 1)
    (s := { State.reset with enc := (Enc.start cfg pix).emitHeader }) hkeeps
    ((Enc.live_start hlegal).emitHeader rfl) rfl (Nat.lt_succ_of_le (hlegal.1 ▸ Nat.sub_le _ _)) hstart
  refine ⟨e, ?_, hpos, hP⟩
  rw [encodeCall_of_run (t := { State.reset with enc := e.emitFooter })]
  · rfl
  · rw [startEncode_legal hlegal, encodeRun_succ_of_step (pix.length + 1) rfl (encStep_header rfl)]
    exact hrun

/-! ### The length of the op-codes -/

/-- R51: an op-code takes at most 5 bytes. -/
theorem encode_length_le {i : Instr} (hi : i ≠ .endMark) : (encode i).length ≤ 5 := by
  cases i with
  | endMark => exact absurd rfl hi
  | rgba => exact Nat.le_refl 5
  | _ => simp [encode]

/-- The encoder has emitted the header of its call and at most 5 bytes for each consumed pixel. -/
def Enc.WithinBounds (cfg : ImageConfig) (e : Enc) : Prop :=
  e.cfg = cfg ∧ ∃ ops, e.out = headerBytes cfg ++ ops ∧ ops.length ≤ 5 * e.pos

/-- An op-code step consumes at least one pixel and emits at most 5 bytes. -/
theorem Enc.WithinBounds.opStep {cfg : ImageConfig} {e : Enc} {raw : Pixel} (hat : e.AtRecord raw)
    (h : e.WithinBounds cfg) : (e.opStep raw).WithinBounds cfg := by
  obtain ⟨hcfg, ops, hout, hlen⟩ := h
  have hpixels := (Enc.choose_pixels hat.before hat.record).1
  have hbytes : (encode (e.choose (resolve e.cfg.channels raw))).length ≤ 5 :=
    encode_length_le (e.selectable_choose _).ne_endMark
  refine ⟨hcfg, ops ++ encode (e.choose (resolve e.cfg.channels raw)), ?_, ?_⟩
  · rw [Enc.opStep, Enc.retire_out, hout, List.append_assoc]
  · rw [List.length_append, Enc.opStep, Enc.retire_pos]
    omega

/-! ### The streaming build -/

/-- R125 with `run = 0`: an arriving pixel is treated afresh. -/
theorem Streaming.arrive_of_run_zero {t : Streaming} (h : t.run = 0) (p : Pixel) : t.arrive p = t.fresh p := if_pos h

@[simp] theorem Streaming.feed_cons (t : Streaming) (p : Pixel) (tl : List Pixel) :
    t.feed (p :: tl) = (t.arrive p).feed tl := rfl

/-- With nothing counted and nothing more to come, the streaming build stays as it is. -/
theorem Streaming.feed_nil {t : Streaming} (h : t.run = 0) : t.feed [] = t := if_pos h

/-- How many of the next pixels a run that stands at `c` still takes (R114, R125). -/
def runLeft (prev : Pixel) (c : Nat) (upcoming : List Pixel) : Nat :=
  min (Config.runMax - c) (upcoming.takeWhile fun q => decide (q = prev)).length

/-- A run that has taken no pixel yet is the one that R114 measures. -/
theorem runLeft_zero (prev : Pixel) (upcoming : List Pixel) : runLeft prev 0 upcoming = runLength prev upcoming := rfl

theorem runLeft_cons_repeat {c : Nat} (hc : c < Config.runMax) (prev : Pixel) (tl : List Pixel) :
    runLeft prev c (prev :: tl) = runLeft prev (c + 1) tl + 1 := by
  simp only [runLeft, List.takeWhile_cons, decide_true, if_true, List.length_cons]
  omega

theorem runLeft_cons_other {prev q : Pixel} (hq : q ≠ prev) (c : Nat) (tl : List Pixel) :
    runLeft prev c (q :: tl) = 0 := by
  simp [runLeft, hq]

theorem runLeft_runMax (prev : Pixel) (upcoming : List Pixel) : runLeft prev Config.runMax upcoming = 0 := by
  simp [runLeft]

/-- R125: a run that is being counted ends as one RUN op of all the pixels that R114 gives it. -/
theorem Streaming.feed_counting {prev : Pixel} {cache : Cache} {c : Nat} {out : List Byte} {upcoming : List Pixel}
    (hpos : c ≠ 0) (hmax : c < Config.runMax) :
    (Streaming.mk prev cache c out).feed upcoming =
      (Streaming.mk prev (cacheUpdate cache prev) 0 (out ++ encode (encRun (c + runLeft prev c upcoming)))).feed
        (upcoming.drop (runLeft prev c upcoming)) := by
  induction upcoming generalizing c with
  | nil => simp [feed, finish, flush, runLeft, hpos]
  | cons q tl ih =>
    by_cases hq : q = prev
    · subst hq
      have hcount : c + runLeft q c (q :: tl) = c + 1 + runLeft q (c + 1) tl := by
        rw [runLeft_cons_repeat hmax]
        omega
      rw [hcount, runLeft_cons_repeat hmax, List.drop_succ_cons, feed_cons]
      by_cases hfull : c + 1 = Config.runMax
      · have harrive : (Streaming.mk q cache c out).arrive q = (Streaming.mk q cache (c + 1) out).flush := by
          simp [arrive, hpos, hfull]
        rw [harrive, hfull, runLeft_runMax]
        rfl
      · have harrive : (Streaming.mk q cache c out).arrive q = ⟨q, cache, c + 1, out⟩ := by
          simp [arrive, hpos, hfull]
        rw [harrive, ih (Nat.succ_ne_zero c) (by omega)]
    · have harrive : (Streaming.mk prev cache c out).arrive q = ((Streaming.mk prev cache c out).flush).arrive q := by
        simp [arrive, hpos, hq, flush]
      rw [runLeft_cons_other hq, feed_cons, harrive]
      rfl

/-- Where no RUN is selected the run length that was offered does not matter, and the op carries one pixel. -/
theorem select_of_not_repeat {prev : Pixel} {cache : Cache} {p : Pixel}
    (h : ¬((cacheProbe cache p).2 = false ∧ p = prev)) (len len' : Nat) :
    select .indexFirst prev cache len p = select .indexFirst prev cache len' p ∧
      (select .indexFirst prev cache len p).pixels = 1 := by
  by_cases hhit : cacheRead cache (pixelHash p) = p
  · rw [select_of_hit hhit, select_of_hit hhit]
    exact ⟨rfl, rfl⟩
  · have hchange : p ≠ prev := fun hrepeats => h ⟨(cacheProbe_miss cache p).2 hhit, hrepeats⟩
    rw [select_of_miss hhit, select_of_miss hhit]
    refine ⟨by simp only [selectMiss, if_neg hchange], ?_⟩
    exact (selectable_selectMiss prev cache len p).pixels_cases.resolve_right fun hrun => hchange hrun.1

/-- R125 against R120: what the streaming build makes of the pixels that are to come is what it makes of them after the op
that the encoder selects for the first of them. -/
theorem Streaming.feed_select (prev : Pixel) (cache : Cache) (out : List Byte) (p : Pixel) (tl : List Pixel) :
    (Streaming.mk prev cache 0 out).feed (p :: tl) =
      (Streaming.mk p (cacheUpdate cache p) 0
        (out ++ encode (select .indexFirst prev cache (runLength prev (p :: tl)) p))).feed
        ((p :: tl).drop (select .indexFirst prev cache (runLength prev (p :: tl)) p).pixels) := by
  rw [feed_cons, arrive_of_run_zero rfl]
  by_cases h : (cacheProbe cache p).2 = false ∧ p = prev
  · obtain ⟨hmiss, rfl⟩ := h
    have hfresh : (Streaming.mk p cache 0 out).fresh p = ⟨p, cache, 1, out⟩ := by simp [fresh, hmiss]
    have hlen : runLength p (p :: tl) = runLeft p 1 tl + 1 := by
      rw [← runLeft_zero, runLeft_cons_repeat (by decide)]
    rw [hfresh, feed_counting Nat.one_ne_zero (by decide), select_of_miss ((cacheProbe_miss cache p).1 hmiss),
      selectMiss_of_repeat rfl, hlen, Nat.add_comm 1]
    rfl
  · obtain ⟨hselect, hpixels⟩ := select_of_not_repeat h (runLength prev (p :: tl)) 0
    rw [hpixels, hselect, fresh, if_neg h]
    rfl

/-- The pixels that are unconsumed after an op are those behind the ones it carries. -/
theorem Enc.upcoming_retire (e : Enc) (i : Instr) (p : Pixel) : (e.retire i p).upcoming = e.upcoming.drop i.pixels := by
  have hn : (e.retire i p).n = e.n := rfl
  simp only [Enc.upcoming, hn, Enc.retire_pix, Enc.retire_pos, Enc.retire_cfg, ← List.map_drop, List.drop_take,
    List.drop_drop, Nat.sub_sub]

/-- The encoder has emitted the header and op-codes after which the streaming build, fed the unconsumed pixels, comes to
stand as it does when it is fed all the pixels from the start. -/
def Enc.StreamsTo (cfg : ImageConfig) (all : List Pixel) (e : Enc) : Prop :=
  e.cfg = cfg ∧ ∃ ops, e.out = headerBytes cfg ++ ops ∧
    (Streaming.mk Config.prevInit cacheReset 0 []).feed all = (Streaming.mk e.prev e.cache 0 ops).feed e.upcoming

theorem Enc.StreamsTo.opStep {cfg : ImageConfig} {all : List Pixel} {e : Enc} {raw : Pixel} (hat : e.AtRecord raw)
    (h : e.StreamsTo cfg all) : (e.opStep raw).StreamsTo cfg all := by
  obtain ⟨hcfg, ops, hout, hfeed⟩ := h
  obtain ⟨tl, hup⟩ := List.head?_eq_some_iff.1 (Enc.upcoming_head? hat.before hat.record)
  refine ⟨hcfg, ops ++ encode (e.choose (resolve e.cfg.channels raw)), ?_, ?_⟩
  · rw [Enc.opStep, Enc.retire_out, hout, List.append_assoc]
  · rw [hfeed, Enc.opStep, Enc.upcoming_retire, Enc.choose, hup, Streaming.feed_select]
    rfl

/-- At the start of a call on a legal input every pixel is unconsumed. -/
theorem Enc.upcoming_start {cfg : ImageConfig} {pix : List Pixel} (h : LegalInput cfg pix) :
    (Enc.start cfg pix).upcoming = pix.map (resolve cfg.channels) := by
  simp [Enc.upcoming, Enc.n, ← h.1]

/-- Once the input is consumed nothing is unconsumed. -/
theorem Enc.upcoming_of_consumed {e : Enc} (h : e.pos = e.n) : e.upcoming = [] := by
  simp [Enc.upcoming, h]

end Sys2Proof.Machine

open Sys2Proof Sys2Proof.Machine

/-- Settles O49: the bounds hold after the header and every op-code step keeps them. -/
theorem encodeCallEndsWithinBounds : Obligations.EncodeCallEndsWithinBounds := by
  intro cfg pix hlegal
  obtain ⟨e, hcall, hpos, hcfg, ops, hout, hlen⟩ := encodeCall_induction (P := Enc.WithinBounds cfg) hlegal
    ⟨rfl, [], (List.append_nil _).symm, Nat.zero_le _⟩ fun _ _ => Enc.WithinBounds.opStep
  refine ⟨ops, hout ▸ hcall, ?_⟩
  rw [hpos, Enc.n, hcfg] at hlen
  exact hlen

/-- Settles O52: the streaming build, fed what is unconsumed at the end of the call, emits nothing more. -/
theorem streamingBuildEmitsTheSameBytes : Obligations.StreamingBuildEmitsTheSameBytes := by
  intro cfg pix hlegal
  have hstart : ((Enc.start cfg pix).emitHeader).StreamsTo cfg (pix.map (resolve cfg.channels)) :=
    ⟨rfl, [], (List.append_nil _).symm, by rw [← Enc.upcoming_start hlegal]; rfl⟩
  obtain ⟨e, hcall, hpos, -, ops, hout, hfeed⟩ :=
    encodeCall_induction hlegal hstart fun _ _ => Enc.StreamsTo.opStep
  rw [hcall, hfeed, Enc.upcoming_of_consumed hpos, Streaming.feed_nil rfl, hout]
end

section
/-! O34, O35. What the run length measures (R114), and the op-code step on the encoder's move (R120). -/

namespace Sys2Proof.Machine

theorem le_length_takeWhile_iff (prev : Pixel) (upcoming : List Pixel) (l : Nat) :
    l ≤ (upcoming.takeWhile fun q => decide (q = prev)).length ↔ ∀ j, j < l → upcoming[j]? = some prev := by
  induction upcoming generalizing l with
  | nil =>
    cases l with
    | zero => simp
    | succ l => exact ⟨nofun, fun h => nomatch h 0 (Nat.succ_pos l)⟩
  | cons q tl ih =>
    cases l with
    | zero => simp
    | succ l =>
      rw [Nat.forall_lt_succ_left]
      by_cases hq : q = prev
      · simp [hq, ih]
      · simp [hq]

/-- R114: a length is at most the run length exactly when it is at most 62 and that many pixels, from the first on, equal
`PREV`. -/
theorem le_runLength_iff (prev : Pixel) (upcoming : List Pixel) (l : Nat) :
    l ≤ runLength prev upcoming ↔ l ≤ 62 ∧ ∀ j, j < l → upcoming[j]? = some prev := by
  rw [runLength, Nat.le_min, le_length_takeWhile_iff]
  simp [Config.runMax]

/-- R110: inside the input the unconsumed pixels are the resolved records. -/
theorem Enc.upcoming_getElem? {e : Enc} {j : Nat} (hj : e.pos + j < e.n) :
    e.upcoming[j]? = (e.pix[e.pos + j]?).map (resolve e.cfg.channels) := by
  have hlt : j < e.n - e.pos := by omega
  simp [Enc.upcoming, hlt]

end Sys2Proof.Machine

open Sys2Proof.Machine

/-- Settles O34: a stretch of pixels that resolve to `PREV` is allowed exactly when it is no longer than the run length. -/
theorem runLengthIsTheLargest : Obligations.RunLengthIsTheLargest := by
  intro e _ hpos len repeats
  have hrepeats (l : Nat) : repeats l ↔ l ≤ len := by
    rw [le_runLength_iff]
    refine ⟨fun ⟨hmax, hend, hall⟩ => ⟨hmax, fun j hj => ?_⟩, fun ⟨hmax, hall⟩ => ?_⟩
    · rw [Enc.upcoming_getElem? (by omega), hall j hj]
    · have hend : e.pos + l ≤ e.n := by
        have hle := (le_runLength_iff e.prev e.upcoming l).2 ⟨hmax, hall⟩
        have hlen := (runLength_le_length e.prev e.upcoming).trans e.upcoming_length_le
        omega
      exact ⟨hmax, hend, fun j hj => (Enc.upcoming_getElem? (by omega)).symm.trans (hall j hj)⟩
  exact ⟨(hrepeats len).2 (Nat.le_refl len), fun l => (hrepeats l).1⟩

/-- Settles O35: the step is the running encode call's own, on the record at `pos`. -/
theorem encoderStepEmitsAndUpdates : Obligations.EncoderStepEmitsAndUpdates := by
  intro s raw more hmoves hphase hlt hraw
  have hstep := step_of_encMoves hmoves ((Enc.busy_iff s.enc).2 (.inr hphase))
  exact ⟨_, hstep.trans (encStep_record hphase hlt hraw), encOpEffect_opStep s raw more, rfl⟩
end

section
/-! O31, O32, O45. The machine beside an encoder with no running call: the encoder has no step of its own (R122), the
decoder's steps leave it as it is (R40), and of the host's inputs only the start of an encode call concerns it. -/

namespace Sys2Proof.Machine

theorem Enc.not_busy_iff (e : Enc) : e.busy = false ↔ e.phase ≠ .header ∧ e.phase ≠ .ops := by
  rw [← Bool.not_eq_true, Enc.busy_iff, not_or]

/-- R40: a decoder step leaves the encoder as it is. -/
theorem decStep_enc {s t : State} (h : decStep s = .next t) : t.enc = s.enc := by
  obtain ⟨-, ⟨-, hheader⟩ | ⟨-, hop⟩⟩ := decStep_cases h
  · obtain ⟨o, -, hraise⟩ | ⟨-, haccept⟩ := headerStep_cases s
    · cases hraise.symm.trans hheader; rfl
    · cases haccept.symm.trans hheader; rfl
  · obtain rfl | ⟨-, rfl⟩ | ⟨_, _, _, -, -, rfl⟩ := opStep_next_cases hop
    · rfl
    · rfl
    · rfl

/-- R122: an encoder with no running call has no next state. -/
theorem encStep_ne_next {s : State} (hb : s.enc.busy = false) (t : State) : encStep s ≠ .next t := by
  obtain ⟨hheader, hops⟩ := (Enc.not_busy_iff s.enc).1 hb
  intro h
  obtain ⟨hp, -⟩ | ⟨hp, -⟩ | ⟨hp, -⟩ | ⟨hp, -⟩ := encStep_cases h
  · exact hheader hp
  · exact hops hp
  · exact hops hp
  · exact hops hp

/-- While no encode call runs, taking a host input other than the start of one leaves the encoder as it is. -/
theorem takeInput_enc {i : Input} {more : List Input} {s t : State} (hb : s.enc.busy = false)
    (hi : ∀ cfg pix, i ≠ .startEncode cfg pix) (h : takeInput i more s = .next t) : t.enc = s.enc := by
  cases i with
  | startEncode cfg pix => exact absurd rfl (hi cfg pix)
  | startDecode bytes =>
    simp only [takeInput] at h
    split at h
    · exact decStep_enc h
    · cases h; rfl
  | turn e =>
    cases e with
    | enc =>
      simp only [takeInput, hb] at h
      cases h; rfl
    | dec =>
      simp only [takeInput] at h
      split at h
      · exact decStep_enc (s := { s with inputs := more }) h
      · cases h; rfl

end Sys2Proof.Machine

open Sys2Proof.Machine

/-- Settles O31: with no encode call running, only the host's start of one moves the encoder. -/
theorem endedEncodeCallStaysAsItIs : Obligations.EndedEncodeCallStaysAsItIs := by
  intro s t hheader hops hstart h
  have hb : s.enc.busy = false := (Enc.not_busy_iff s.enc).2 ⟨hheader, hops⟩
  cases hinputs : s.inputs with
  | nil =>
    simp only [step, hinputs, moveBusy] at h
    split at h
    · exact decStep_enc h
    · exact absurd h (encStep_ne_next hb t)
  | cons i more =>
    simp only [step, hinputs] at h
    exact takeInput_enc hb (fun cfg pix hi => hstart cfg pix more (hi ▸ hinputs)) h

/-- Settles O32: the turn finds its engine without a running call. -/
theorem turnOfAnEngineWithoutACallPasses : Obligations.TurnOfAnEngineWithoutACallPasses := by
  refine ⟨fun s more hinputs hover => ?_, fun s more hinputs hheader hops => ?_⟩
  · have hb : s.dec.busy = false := by rwa [← Bool.not_eq_true, Dec.busy_iff]
    simp only [step, hinputs, takeInput, hb]
    rfl
  · have hb : s.enc.busy = false := (Enc.not_busy_iff s.enc).2 ⟨hheader, hops⟩
    simp only [step, hinputs, takeInput, hb]
    rfl

/-- Settles O45: with the host silent and no decode call the step is the encoder's, which has none. -/
theorem noStepWhenEveryCallIsOver : Obligations.NoStepWhenEveryCallIsOver := by
  intro s hinputs hover hphase
  have hb : s.dec.busy = false := by rwa [← Bool.not_eq_true, Dec.busy_iff]
  have hmove : step s = encStep s := by simp [step, hinputs, moveBusy, hb]
  obtain hidle | hdone := hphase
  · simp only [hmove, encStep, hidle]
  · simp only [hmove, encStep, hdone]
end

section
/-! O50. A whole decode call (R151): what every decoder step keeps holds at the end of a run, the run of a call always
ends, and the result does not depend on how many steps to spare it was given. -/

namespace Sys2Proof.Machine

/-- A decoder step leaves the input stream as it is. -/
theorem decStep_stream {s t : State} (h : decStep s = .next t) : t.dec.stream = s.dec.stream := by
  obtain ⟨-, ⟨-, hheader⟩ | ⟨-, hop⟩⟩ := decStep_cases h
  · obtain ⟨o, -, hraise⟩ | ⟨-, haccept⟩ := headerStep_cases s
    · cases hraise.symm.trans hheader; rfl
    · cases haccept.symm.trans hheader; rfl
  · obtain rfl | ⟨-, rfl⟩ | ⟨_, _, _, -, -, rfl⟩ := opStep_next_cases hop
    · rfl
    · rfl
    · rfl

/-- The first iteration of a decoder run: the call is over and the run with it, or one step is made. -/
theorem decodeRun_succ_cases {k : Nat} {s t : State} (h : decodeRun (k + 1) s = .next t) :
    (s.dec.busy = false ∧ t = s) ∨ ∃ u, s.dec.busy = true ∧ decStep s = .next u ∧ decodeRun k u = .next t := by
  cases hb : s.dec.busy with
  | false =>
    rw [decodeRun_of_not_busy _ hb] at h
    cases h
    exact .inl ⟨rfl, rfl⟩
  | true =>
    cases hstep : decStep s with
    | next u => exact .inr ⟨u, rfl, rfl, (decodeRun_succ_of_step k hb hstep).symm.trans h⟩
    | fault f => simp [decodeRun, hb, hstep] at h
    | refused r => simp [decodeRun, hb, hstep] at h

/-- The steps of a run after its first `k`. -/
theorem decodeRun_split {k : Nat} {s t : State} (j : Nat) (h : decodeRun k s = .next t) :
    decodeRun (k + j) s = decodeRun j t := by
  induction k generalizing s with
  | zero => cases h; rw [Nat.zero_add]
  | succ k ih =>
    obtain ⟨hb, rfl⟩ | ⟨u, hb, hstep, hrun⟩ := decodeRun_succ_cases h
    · rw [decodeRun_of_not_busy _ hb, decodeRun_of_not_busy _ hb]
    · rw [Nat.succ_add, decodeRun_succ_of_step _ hb hstep, ih hrun]

/-- One more step at the end of a run. -/
theorem decodeRun_snoc {k : Nat} {s t u : State} (h : decodeRun k s = .next t) (hb : t.dec.busy = true)
    (hstep : decStep t = .next u) : decodeRun (k + 1) s = .next u :=
  (decodeRun_split 1 h).trans (decodeRun_succ_of_step 0 hb hstep)

/-- What every decoder step keeps, a run keeps. -/
theorem decodeRun_induction {P : State → Prop} (hkeeps : ∀ s t, decStep s = .next t → P s → P t) {k : Nat} {s t : State}
    (h : decodeRun k s = .next t) (hs : P s) : P t := by
  induction k generalizing s with
  | zero => cases h; exact hs
  | succ k ih =>
    obtain ⟨-, rfl⟩ | ⟨u, -, hstep, hrun⟩ := decodeRun_succ_cases h
    · exact hs
    · exact ih hrun (hkeeps s u hstep hs)

/-- R99: a header that fails a check ends the call at once, with the check's offset. -/
theorem decodeRun_of_headerError {bytes : List Byte} {o : Nat} (h : headerError bytes = some o) (k : Nat) (s : State) :
    decodeRun (k + 1) (startDecode bytes s) = .next (raiseDecodeError o (startDecode bytes s)) := by
  have hstep : decStep (startDecode bytes s) = .next (raiseDecodeError o (startDecode bytes s)) := by
    simp [decStep, Dec.busy, headerStep, h]
  rw [decodeRun_succ_of_step k rfl hstep]
  exact decodeRun_of_not_busy k rfl

/-- R151: the run of a decode call ends: its header fails, or is accepted and leaves fewer bytes than there are steps. -/
theorem decodeRun_start_ends (bytes : List Byte) (s : State) :
    ∃ t, decodeRun (bytes.length + 1) (startDecode bytes s) = .next t ∧ t.dec.busy = false := by
  cases h : headerError bytes with
  | some o => exact ⟨_, decodeRun_of_headerError h bytes.length s, rfl⟩
  | none =>
    have hstep : decStep (startDecode bytes s) = .next { s with dec := (Dec.start bytes).acceptHeader } := by
      simp [decStep, Dec.busy, headerStep, h, startDecode]
    have hrem : (Dec.start bytes).acceptHeader.rem < bytes.length :=
      Nat.sub_lt ((Nat.zero_lt_succ 13).trans (legal_of_headerError_eq_none h).1) (Nat.zero_lt_succ 13)
    rw [decodeRun_succ_of_step _ rfl hstep]
    exact decodeRun_ends bytes.length _ rfl hrem

/-- Any run of a decode call that reaches its end gives the call's result. -/
theorem decodeCall_of_ended_run {bytes : List Byte} {k : Nat} {t : State}
    (h : decodeRun k (startDecode bytes State.reset) = .next t) (hover : t.dec.busy = false) :
    decodeCall bytes = t.dec.result := by
  obtain ⟨u, hu, huover⟩ := decodeRun_start_ends bytes State.reset
  have ht := decodeRun_add (bytes.length + 1) h hover
  rw [Nat.add_comm, decodeRun_add k hu huover] at ht
  cases ht
  exact decodeCall_of_run hu

/-- A call that is over has a result. -/
theorem Dec.exists_result {d : Dec} (hover : d.busy = false) : ∃ r, d.result = some r := by
  cases hs : d.status with
  | running => simp [Dec.busy, hs] at hover
  | done | failed => simp [Dec.result, hs]

/-- R166: an error that the host reads is the offset of a FAILED decoder. -/
theorem Dec.result_error {d : Dec} {o : Nat} (h : d.result = some (.error o)) : d.status = .failed ∧ d.errOffset = o := by
  cases hs : d.status with
  | running | done => simp [Dec.result, hs] at h
  | failed => simpa [Dec.result, hs] using h

end Sys2Proof.Machine

open Sys2Proof Sys2Proof.Machine

/-- Settles O50: the run of the call ends, and the decoder's invariant, which every step keeps, bounds the offset. -/
theorem decodeCallAlwaysEnds : Obligations.DecodeCallAlwaysEnds := by
  intro bytes
  obtain ⟨t, hrun, hover⟩ := decodeRun_start_ends bytes State.reset
  have hkept : t.dec.Inv ∧ t.dec.stream = bytes :=
    decodeRun_induction (P := fun s => s.dec.Inv ∧ s.dec.stream = bytes)
      (fun s u hstep ⟨hinv, hstream⟩ => ⟨(decStep_keeps_inv hinv hstep).1, (decStep_stream hstep).trans hstream⟩)
      hrun ⟨Dec.inv_start bytes, rfl⟩
  obtain ⟨hinv, hstream⟩ := hkept
  obtain ⟨r, hresult⟩ := Dec.exists_result hover
  refine ⟨r, (decodeCall_of_run hrun).trans hresult, ?_⟩
  rintro o rfl
  obtain ⟨hfailed, hoffset⟩ := Dec.result_error hresult
  rw [← hoffset, ← hstream]
  exact hinv.errRange hfailed
end

section
/-! O12 to O19. What the decoder reads at each range of first bytes, and the op it then executes: an op-code that fits the
stream completes on its pixel, another one raises (R140 to R146). -/

namespace Sys2Proof

/-! ### The first byte of each kind -/

theorem cons_ne_footer {b0 : Byte} (h : b0.toNat ≠ 0) (rest : List Byte) : b0 :: rest ≠ footer := by
  intro heq
  obtain ⟨rfl, -⟩ := List.cons.inj heq
  exact h rfl

/-- R52: below the two literals the top two bits decide. -/
theorem kindOf_of_lt_254 {b0 : Byte} (h : b0.toNat < 254) :
    kindOf b0 =
      if b0.toNat / 64 % 4 = 0 then .index else if b0.toNat / 64 % 4 = 1 then .diff
      else if b0.toNat / 64 % 4 = 2 then .luma else .run := by
  have hff : b0 ≠ 0xFF := by rintro rfl; exact absurd h (by decide)
  have hfe : b0 ≠ 0xFE := by rintro rfl; exact absurd h (by decide)
  rw [kindOf, if_neg hff, if_neg hfe]
  rfl

section
variable {b0 : Byte} (rest : List Byte)

/-- R54, with the bit places of D7. -/
theorem decode_of_64_le (hlo : 64 ≤ b0.toNat) (hhi : b0.toNat < 128) :
    decode (b0 :: rest) =
      .ok (.diff ((b0.toNat / 16 % 4 : Nat) - 2) ((b0.toNat / 4 % 4 : Nat) - 2) ((b0.toNat % 4 : Nat) - 2), rest) := by
  have htag : b0.toNat / 64 % 4 = 1 := by omega
  have hkind : kindOf b0 = .diff := by rw [kindOf_of_lt_254 (by omega), htag]; rfl
  have hlow : bits b0 1 0 = b0.toNat % 4 := by simp [bits]
  rw [decode_cons (cons_ne_footer (by omega) rest), hkind, ← hlow]
  rfl

/-- R55, with the nibbles of D7. -/
theorem decode_of_128_le (b1 : Byte) (hlo : 128 ≤ b0.toNat) (hhi : b0.toNat < 192) :
    decode (b0 :: b1 :: rest) =
      .ok (.luma ((b0.toNat % 64 : Nat) - 32) ((b1.toNat / 16 : Nat) - 8) ((b1.toNat % 16 : Nat) - 8), rest) := by
  have htag : b0.toNat / 64 % 4 = 2 := by omega
  have hkind : kindOf b0 = .luma := by rw [kindOf_of_lt_254 (by omega), htag]; rfl
  have hgreen : bits b0 5 0 = b0.toNat % 64 := by simp [bits]
  have hhigh : bits b1 7 4 = b1.toNat / 16 := Nat.mod_eq_of_lt (by have := b1.isLt; omega)
  have hlow : bits b1 3 0 = b1.toNat % 16 := by simp [bits]
  rw [decode_cons (cons_ne_footer (by omega) _), hkind, ← hgreen, ← hhigh, ← hlow]
  rfl

/-- R56. -/
theorem decode_of_192_le (hlo : 192 ≤ b0.toNat) (hhi : b0.toNat < 254) :
    decode (b0 :: rest) = .ok (.run (b0.toNat % 64 + 1), rest) := by
  have htag : b0.toNat / 64 % 4 = 3 := by omega
  have hkind : kindOf b0 = .run := by rw [kindOf_of_lt_254 hhi, htag]; rfl
  have hlow : bits b0 5 0 = b0.toNat % 64 := by simp [bits]
  rw [decode_cons (cons_ne_footer (by omega) rest), hkind, ← hlow]
  rfl

/-- R57. -/
theorem decode_rgb (r g b : Byte) : decode (0xFE :: r :: g :: b :: rest) = .ok (.rgb r g b, rest) :=
  decode_cons (cons_ne_footer (by decide) _)

/-- R58. -/
theorem decode_rgba (r g b a : Byte) : decode (0xFF :: r :: g :: b :: a :: rest) = .ok (.rgba r g b a, rest) :=
  decode_cons (cons_ne_footer (by decide) _)

end

end Sys2Proof

namespace Sys2Proof.Machine

/-- R146: with too few bytes in the stream an op-code raises at its first byte. -/
theorem exec_raises {i : Instr} {s : State} (hi : i ≠ .endMark) (hshort : s.dec.rem < i.length) :
    exec i s = .next (raiseDecodeError s.dec.off s) :=
  (exec_eq_decodeOp hi s).trans (decodeOp_short hshort)

theorem exec_short {i : Instr} {s : State} (hi : i ≠ .endMark) (hshort : s.dec.rem < i.length) :
    ∃ t, exec i s = .next t ∧ Raised s t s.dec.off :=
  ⟨_, exec_raises hi hshort, raised_raiseDecodeError s s.dec.off⟩

end Sys2Proof.Machine

open Sys2Proof Sys2Proof.Machine

/-- Settles O12: the literal's pixel is its own four bytes. -/
theorem rgbaTakesFourRawChannels : Obligations.RgbaTakesFourRawChannels := fun r g b a =>
  ⟨fun rest => decode_rgba rest r g b a, fun _ => ⟨exec_completes (i := .rgba r g b a) nofun,
    exec_short (i := .rgba r g b a) nofun⟩⟩

/-- Settles O13: the literal's pixel is its own three bytes with `PREV`'s alpha. -/
theorem rgbInheritsAlpha : Obligations.RgbInheritsAlpha := fun r g b =>
  ⟨fun rest => decode_rgb rest r g b, fun _ => ⟨exec_completes (i := .rgb r g b) nofun,
    exec_short (i := .rgb r g b) nofun⟩⟩

/-- Settles O14: the op's pixel is what the slot holds. -/
theorem indexEmitsTheNamedSlot : Obligations.IndexEmitsTheNamedSlot :=
  ⟨fun _ _ h hne => decode_of_lt_64 h hne, fun idx _ => exec_completes (i := .index idx) nofun⟩

/-- Settles O15: adding each delta is exact modulo 256 (R75). -/
theorem diffAddsBiasedDeltas : Obligations.DiffAddsBiasedDeltas := by
  refine ⟨fun b0 rest => decode_of_64_le rest, fun dr dg db s hrem => ?_⟩
  obtain ⟨t, hexec, heffect⟩ := exec_completes (i := .diff dr dg db) nofun hrem
  exact ⟨t, _, hexec, heffect, add8s_toNat _ dr, add8s_toNat _ dg, add8s_toNat _ db, rfl⟩

/-- Settles O16: red and blue are moved by the plain sum of the green delta and their own difference (R75). -/
theorem lumaAddsGreenRelativeDeltas : Obligations.LumaAddsGreenRelativeDeltas := by
  refine ⟨fun b0 b1 rest => decode_of_128_le rest b1, fun dg drg dbg s => ⟨fun hrem => ?_, ?_⟩⟩
  · obtain ⟨t, hexec, heffect⟩ := exec_completes (i := .luma dg drg dbg) nofun hrem
    refine ⟨t, _, hexec, heffect, ?_, add8s_toNat _ dg, ?_, rfl⟩
    · rw [add_assoc]
      exact add8s_toNat _ (dg + drg)
    · rw [add_assoc]
      exact add8s_toNat _ (dg + dbg)
  · exact exec_short (i := .luma dg drg dbg) nofun

/-- Settles O17: the op's pixel is `PREV` itself. -/
theorem runRepeatsPrev : Obligations.RunRepeatsPrev := by
  refine ⟨fun b0 rest hlo hhi => ⟨decode_of_192_le rest hlo hhi, by omega⟩, fun len s hrem => ?_⟩
  obtain ⟨t, hexec, heffect⟩ := exec_completes (i := .run len) nofun hrem
  exact ⟨t, hexec, heffect, heffect.prev⟩

/-- Settles O19: the raise writes the status and the error's offset and nothing else (log 6). -/
theorem shortOpRaisesAndHasNoEffect : Obligations.ShortOpRaisesAndHasNoEffect := fun _ s hi hshort =>
  ⟨_, exec_raises hi hshort, raised_raiseDecodeError s s.dec.off, rfl, rfl, rfl, rfl⟩

/-- Settles O18: END writes the status (R148), and the result of a DONE decoder is its image. -/
theorem endMarkFinishesTheCall : Obligations.EndMarkFinishesTheCall := fun s => ⟨_, exec_endMark s, rfl, rfl⟩
end

section
/-! O23 to O26, O46. The step at an op boundary (R135 to R138): short of 8 bytes it raises, at the footer it ends the call,
and otherwise it executes the op-code that the bytes decode to, which then fits the stream. -/

namespace Sys2Proof

/-- R60, R136: 8 bytes that are not the footer decode to an op-code that fits them. -/
theorem decode_of_eight_le {bytes : List Byte} (hlen : 8 ≤ bytes.length) (hne : bytes ≠ footer) :
    ∃ i left, decode bytes = .ok (i, left) ∧ i ≠ .endMark ∧ i.length ≤ bytes.length := by
  cases bytes with
  | nil => exact absurd hlen (by decide)
  | cons b0 rest =>
    rw [List.length_cons] at hlen
    obtain ⟨i, left, hdecode, hi, -, hlength⟩ := everyFirstByteIsAnOpCode b0 rest (by omega) hne
    exact ⟨i, left, hdecode, hi, by rw [List.length_cons]; omega⟩

end Sys2Proof

namespace Sys2Proof.Machine

section
variable {s : State}

/-- R136. -/
theorem opStep_of_truncated (hne : s.dec.rest ≠ footer) (hrem : s.dec.rem < 8) :
    opStep s = .next (raiseDecodeError s.dec.off s) := if_pos ⟨hne, hrem⟩

/-- R137, R138. -/
theorem opStep_of_decode {i : Instr} {left : List Byte} (hdecode : decode s.dec.rest = .ok (i, left))
    (hlong : i = .endMark ∨ 8 ≤ s.dec.rem) : opStep s = exec i s := by
  have hgoes : ¬(s.dec.rest ≠ footer ∧ s.dec.rem < Config.footerLen) := by
    rintro ⟨hne, hrem⟩
    obtain rfl | hlong := hlong
    · exact hne ((decode_eq_endMark_iff _ _).1 hdecode).1
    · exact absurd hrem (Nat.not_lt.2 hlong)
  rw [opStep, if_neg hgoes, hdecode]

/-- R135, R148. -/
theorem opStep_of_footer (hrest : s.dec.rest = footer) :
    opStep s = .next { s with dec := { s.dec with status := .done } } :=
  opStep_of_decode (hrest ▸ decode_footer) (.inl rfl)

/-- R138, R147: an op-code that fits the stream completes, on the pixel it stands for. -/
theorem opStep_of_op {i : Instr} {left : List Byte} (hdecode : decode s.dec.rest = .ok (i, left)) (hi : i ≠ .endMark)
    (hrem : 8 ≤ s.dec.rem) (hfit : i.length ≤ s.dec.rem) :
    opStep s = .next { s with dec := s.dec.retire (opPixel i s.dec) i.pixels i.length } := by
  rw [opStep_of_decode hdecode (.inr hrem), exec_eq_decodeOp hi, decodeOp_complete hfit]

/-- R60, R146: with 8 bytes remaining that are not the footer, there is an op-code and it fits. -/
theorem exists_op (hne : s.dec.rest ≠ footer) (hrem : 8 ≤ s.dec.rem) :
    ∃ i left, decode s.dec.rest = .ok (i, left) ∧ i ≠ .endMark ∧ i.length ≤ s.dec.rem := by
  rw [← dec_rest_length] at hrem ⊢
  exact decode_of_eight_le hrem hne

theorem AtOpBoundary.running {more : List Input} (h : AtOpBoundary s more) : s.dec.status = .running := h.1.1

/-- At an op boundary the machine's step is the op step, on what the host says after it. -/
theorem step_eq_opStep {more : List Input} (h : AtOpBoundary s more) : step s = opStep { s with inputs := more } := by
  obtain ⟨hmoves, hheader⟩ := h
  rw [step_of_decMoves hmoves]
  exact decStep_eq_opStep (s := { s with inputs := more }) ((Dec.busy_iff s.dec).2 hmoves.1) hheader

/-- R146, R147: with 8 bytes remaining that are not the footer, the machine's step completes an op-code, and the call goes
on. -/
theorem step_completes {more : List Input} (h : AtOpBoundary s more) (hne : s.dec.rest ≠ footer) (hrem : 8 ≤ s.dec.rem) :
    ∃ t, step s = .next t ∧ t.dec.status = .running := by
  obtain ⟨i, left, hdecode, hi, hfit⟩ := exists_op hne hrem
  exact ⟨_, (step_eq_opStep h).trans (opStep_of_op (s := { s with inputs := more }) hdecode hi hrem hfit), h.running⟩

/-- R148: at the footer the machine's step ends the call. -/
theorem step_finishes {more : List Input} (h : AtOpBoundary s more) (hrest : s.dec.rest = footer) :
    step s = .next { s with dec := { s.dec with status := .done }, inputs := more } :=
  (step_eq_opStep h).trans (opStep_of_footer (s := { s with inputs := more }) hrest)

/-- R136: truncated, the machine's step raises at `off`. -/
theorem step_truncated {more : List Input} (h : AtOpBoundary s more) (hne : s.dec.rest ≠ footer) (hrem : s.dec.rem < 8) :
    step s = .next (raiseDecodeError s.dec.off { s with inputs := more }) :=
  (step_eq_opStep h).trans (opStep_of_truncated (s := { s with inputs := more }) hne hrem)

end

/-! ### The loader -/

theorem tableBytes_length (nbits w : Nat) : (tableBytes nbits w).length = 8 := by
  unfold tableBytes
  split
  · simp
  · simp

/-- The loader leaves the word, and nothing after it, from `off` on. -/
@[simp] theorem Dec.load_rest (d : Dec) (word : List Byte) : (d.load word).rest = word := by
  unfold Dec.load
  split
  · have hlen : (d.stream.take d.off ++ List.replicate (d.off - d.stream.length) 0).length = d.off := by
      rw [List.length_append, List.length_take, List.length_replicate]
      omega
    exact List.drop_left' hlen
  · rfl

/-- The loader leaves a running decoder with its header accepted. -/
theorem Dec.load_running (d : Dec) (word : List Byte) :
    (d.load word).status = .running ∧ (d.load word).headerOk = true := by
  unfold Dec.load
  split
  next hheader => exact ⟨rfl, hheader⟩
  next => exact ⟨rfl, rfl⟩

theorem decodeTableWord_eq_some_iff (nbits w : Nat) (i : Instr) :
    decodeTableWord nbits w = some i ↔ ∃ left, decode (tableBytes nbits w) = .ok (i, left) := by
  unfold decodeTableWord
  cases decode (tableBytes nbits w) with
  | ok p => simp [Prod.ext_iff]
  | error e => simp

theorem atOpBoundary_withFetchWord (s : State) (nbits w : Nat) : AtOpBoundary (s.withFetchWord nbits w) [] :=
  have ⟨hstatus, hheader⟩ := s.dec.load_running (tableBytes nbits w)
  ⟨⟨hstatus, .inl ⟨rfl, rfl⟩⟩, hheader⟩

end Sys2Proof.Machine

open Sys2Proof Sys2Proof.Machine

/-- Settles O23: the host silent or naming the decoder, the step is the op step, which executes what was decoded. -/
theorem stepRunsTheDecodedInstruction : Obligations.StepRunsTheDecodedInstruction := by
  intro s i left hstatus hheader hdecode hlong
  have hstep : ∀ more, AtOpBoundary s more → step s = exec i { s with inputs := more } := fun more hat =>
    (step_eq_opStep hat).trans (opStep_of_decode (s := { s with inputs := more }) hdecode hlong)
  refine ⟨fun hinputs => ?_, fun more hinputs => hstep more ⟨⟨hstatus, .inr hinputs⟩, hheader⟩⟩
  have hsame : ({ s with inputs := [] } : State) = s := by rw [← hinputs]
  exact (hstep [] ⟨⟨hstatus, .inl ⟨hinputs, rfl⟩⟩, hheader⟩).trans (congrArg (exec i) hsame)

/-- Settles O24: the truncation test of the op step, and the op-code that 8 bytes always hold. -/
theorem truncatedStreamFailsAtOff : Obligations.TruncatedStreamFailsAtOff := by
  intro s more hat hne
  refine ⟨fun hrem => ⟨_, step_truncated hat hne hrem, raised_raiseDecodeError _ s.dec.off⟩, fun hrem => ?_⟩
  obtain ⟨i, left, hdecode, hi, -⟩ := exists_op hne hrem
  exact ⟨i, left, hdecode, hi,
    (step_eq_opStep hat).trans (opStep_of_decode (s := { s with inputs := more }) hdecode (.inr hrem))⟩

/-- Settles O25: a step at other bytes than the footer raises or completes an op-code. -/
theorem onlyTheFooterAtTheEndIsDone : Obligations.OnlyTheFooterAtTheEndIsDone := by
  intro s more hat
  refine ⟨fun hrest => ⟨_, step_finishes hat hrest, rfl, rfl⟩, fun hne => ?_⟩
  by_cases hrem : s.dec.rem < 8
  · exact ⟨_, step_truncated hat hne hrem, nofun⟩
  · obtain ⟨t, hstep, hrunning⟩ := step_completes hat hne (Nat.le_of_not_lt hrem)
    exact ⟨t, hstep, by simp [hrunning]⟩

/-- Settles O26: with 8 bytes remaining the step ends the call at the footer or completes an op-code. -/
theorem framedOpsAreNeverShort : Obligations.FramedOpsAreNeverShort := by
  intro s more hat hrem
  by_cases hrest : s.dec.rest = footer
  · exact ⟨_, step_finishes hat hrest, nofun⟩
  · obtain ⟨t, hstep, hrunning⟩ := step_completes hat hrest hrem
    exact ⟨t, hstep, by simp [hrunning]⟩

/-- Settles O46: the loader leaves the decoder at an op boundary whose remaining bytes are the word's 8. -/
theorem fetchWordIsRunNext : Obligations.FetchWordIsRunNext := by
  intro s nbits w i hword
  obtain ⟨left, hdecode⟩ := (decodeTableWord_eq_some_iff nbits w i).1 hword
  have hrest : (s.withFetchWord nbits w).dec.rest = tableBytes nbits w := Dec.load_rest s.dec _
  have hrem : 8 ≤ (s.withFetchWord nbits w).dec.rem := by rw [← dec_rest_length, hrest, tableBytes_length]
  rw [step_eq_opStep (atOpBoundary_withFetchWord s nbits w)]
  exact opStep_of_decode (s := s.withFetchWord nbits w) (hrest ▸ hdecode) (.inr hrem)
end

section
/-! O48. The round trip (R152). A well-formed op-code decodes back to itself, so that after any number of op-code steps a
decoder that reads the encoder's output so far holds the encoder's `PREV` and `CACHE` and has appended exactly the pixels
that the encoder has consumed. -/

namespace Sys2Proof

/-- R51: the encoding of an instruction has the length of the table. -/
theorem encode_length (i : Instr) : (encode i).length = i.length := by
  cases i with
  | _ => rfl

/-- R52 to R59: the bytes of a well-formed op-code decode to it, unless with what follows they are the footer. -/
theorem decode_encode_append {i : Instr} {tail : List Byte} (hwf : i.wf = true) (hi : i ≠ .endMark)
    (hne : encode i ++ tail ≠ footer) : decode (encode i ++ tail) = .ok (i, tail) := by
  obtain ⟨hindex, hdiff, hluma, hrun⟩ := packedBytesAreTheTablesNumbers
  cases i with
  | rgba r g b a => exact decode_rgba tail r g b a
  | rgb r g b => exact decode_rgb tail r g b
  | index idx =>
    obtain ⟨b0, hencode, hval⟩ := hindex idx
    rw [hencode] at hne ⊢
    have hslot : (⟨b0.toNat, hval ▸ idx.isLt⟩ : Slot) = idx := Fin.ext hval
    rw [← hslot]
    exact decode_of_lt_64 _ hne
  | diff dr dg db =>
    obtain ⟨hr, hg, hb⟩ := (wf_diff_iff dr dg db).1 hwf
    obtain ⟨b0, hencode, hval⟩ := hdiff dr dg db hwf
    have hdr : ((b0.toNat / 16 % 4 : Nat) : Int) - 2 = dr := by omega
    have hdg : ((b0.toNat / 4 % 4 : Nat) : Int) - 2 = dg := by omega
    have hdb : ((b0.toNat % 4 : Nat) : Int) - 2 = db := by omega
    rw [hencode, List.singleton_append, decode_of_64_le tail (by omega) (by omega), hdr, hdg, hdb]
  | luma dg drg dbg =>
    obtain ⟨hg, hr, hb⟩ := (wf_luma_iff dg drg dbg).1 hwf
    obtain ⟨b0, b1, hencode, hval0, hval1⟩ := hluma dg drg dbg hwf
    have hdg : ((b0.toNat % 64 : Nat) : Int) - 32 = dg := by omega
    have hdrg : ((b1.toNat / 16 : Nat) : Int) - 8 = drg := by omega
    have hdbg : ((b1.toNat % 16 : Nat) : Int) - 8 = dbg := by omega
    rw [hencode, List.cons_append, List.singleton_append, decode_of_128_le tail b1 (by omega) (by omega), hdg, hdrg, hdbg]
  | run len =>
    obtain ⟨hpos, hmax⟩ := (wf_run_iff len).1 hwf
    obtain ⟨b0, hencode, hval⟩ := hrun len hwf
    have hlen : b0.toNat % 64 + 1 = len := by omega
    rw [hencode, List.singleton_append, decode_of_192_le tail (by omega) (by omega), hlen]
  | endMark => exact absurd rfl hi

end Sys2Proof

namespace Sys2Proof.Machine

/-! ### One op-code read back -/

/-- R138: where a well-formed op-code is followed by at least 8 bytes, the step completes it. -/
theorem opStep_of_encode {s : State} {i : Instr} {tail : List Byte} (hwf : i.wf = true) (hi : i ≠ .endMark)
    (htail : 8 ≤ tail.length) (hrest : s.dec.rest = encode i ++ tail) :
    opStep s = .next { s with dec := s.dec.retire (opPixel i s.dec) i.pixels i.length } := by
  have hpos := instr_length_pos i
  have hrem : s.dec.rem = i.length + tail.length := by
    rw [← dec_rest_length, hrest, List.length_append, encode_length]
  have hne : encode i ++ tail ≠ footer := by
    intro hfooter
    have hlen : s.dec.rest.length = 8 := by rw [hrest, hfooter]; rfl
    rw [dec_rest_length] at hlen
    omega
  have hdecode : decode s.dec.rest = .ok (i, tail) := by rw [hrest, decode_encode_append hwf hi hne]
  exact opStep_of_op hdecode hi (by omega) (by omega)

/-! ### The encoder's mirror -/

/-- The decoder that has read what the encoder `e` has emitted, with `tail` still to come (R91, R152). -/
def Enc.mirror (e : Enc) (tail : List Byte) : Dec where
  prev := e.prev
  cache := e.cache
  off := e.out.length
  img := (e.pix.take e.pos).map (resolve e.cfg.channels)
  status := .running
  errOffset := 0
  stream := e.out ++ tail
  cfg := e.cfg
  headerOk := true

@[simp] theorem Enc.mirror_rest (e : Enc) (tail : List Byte) : (e.mirror tail).rest = tail := List.drop_left

section
variable {e : Enc} {raw p : Pixel} {i : Instr} (hat : e.AtRecord raw) (hp : resolve e.cfg.channels raw = p)
  (hi : e.choose p = i)
include hat hp hi

/-- R14, R114: the pixels that the chosen op carries all resolve to the pixel it was chosen for. -/
theorem Enc.chosen_carries {j : Nat} (hj : j < i.pixels) :
    (e.pix[e.pos + j]?).map (resolve e.cfg.channels) = some p := by
  subst hp hi
  have hend := (Enc.choose_pixels hat.before hat.record).2
  obtain hone | ⟨hrepeats, hlen⟩ := (e.selectable_choose (resolve e.cfg.channels raw)).pixels_cases
  · have hzero : j = 0 := by omega
    rw [hzero, Nat.add_zero, hat.record, Option.map_some]
  · have hall := ((le_runLength_iff e.prev e.upcoming _).1 hlen.le).2
    rw [← Enc.upcoming_getElem? (by omega), hall j hj, hrepeats]

/-- What is consumed after the chosen op: its copies of the pixel behind what was consumed before it. -/
theorem Enc.consumed_of_chosen :
    (e.pix.take (e.pos + i.pixels)).map (resolve e.cfg.channels) =
      (e.pix.take e.pos).map (resolve e.cfg.channels) ++ List.replicate i.pixels p := by
  have hcarried : ((e.pix.drop e.pos).take i.pixels).map (resolve e.cfg.channels) = List.replicate i.pixels p := by
    apply List.ext_getElem?
    intro j
    by_cases hj : j < i.pixels
    · simpa [hj] using Enc.chosen_carries hat hp hi hj
    · simp [hj]
  rw [List.take_add, List.map_append, hcarried]

/-- Retiring the chosen op leaves the mirror of the encoder after its own step. -/
theorem Enc.mirror_retire (tail : List Byte) :
    (e.mirror (encode i ++ tail)).retire p i.pixels i.length = (e.opStep raw).mirror tail := by
  have hconsumed := Enc.consumed_of_chosen hat hp hi
  have hopStep : e.opStep raw = e.retire i p := by rw [Enc.opStep, hp, hi]
  simp only [hopStep, Dec.retire, Enc.mirror, Enc.retire, hconsumed, List.length_append, encode_length,
    List.append_assoc]

/-- R91, R152: the mirror's step on the chosen op leaves the mirror of the encoder after its own step. -/
theorem Enc.mirror_step {tail : List Byte} (htail : 8 ≤ tail.length) (s : State) :
    decStep { s with dec := e.mirror (encode i ++ tail) } = .next { s with dec := (e.opStep raw).mirror tail } := by
  have hselectable : Selectable e.prev e.cache (runLength e.prev e.upcoming) p i := hi ▸ e.selectable_choose p
  have hwf : i.wf = true := hi ▸ hp ▸ selectedOpsAreWellFormed selOrder e raw hat.before hat.record
  rw [decStep_eq_opStep rfl rfl, opStep_of_encode hwf hselectable.ne_endMark htail (Enc.mirror_rest _ _),
    hselectable.opPixel_eq (d := e.mirror _), Enc.mirror_retire hat hp hi]

end

/-- A decode call on what the encoder has emitted, with at least 8 bytes to come, comes to stand as the encoder's mirror. -/
def Enc.Mirrored (cfg : ImageConfig) (pix : List Pixel) (e : Enc) : Prop :=
  e.cfg = cfg ∧ e.pix = pix ∧ ∃ k, ∀ tail : List Byte, 8 ≤ tail.length →
    decodeRun k (startDecode (e.out ++ tail) State.reset) = .next { State.reset with dec := e.mirror tail }

/-- R97, R100: the emitted header is accepted, and both engines are in their reset state. -/
theorem Enc.mirrored_emitHeader {cfg : ImageConfig} {pix : List Pixel} (hlegal : LegalInput cfg pix) :
    (Enc.start cfg pix).emitHeader.Mirrored cfg pix := by
  obtain ⟨-, hc, hs⟩ := hlegal
  refine ⟨rfl, rfl, 1, fun tail htail => ?_⟩
  have hne : tail ≠ [] := List.ne_nil_of_length_pos (by omega)
  have haccept : (Dec.start (headerBytes cfg ++ tail)).acceptHeader = (Enc.start cfg pix).emitHeader.mirror tail := by
    rw [Dec.acceptHeader, Dec.start_stream, parseConfig_headerBytes]
    rfl
  rw [← haccept]
  exact decodeRun_headerBytes hc hs hne 0 State.reset

/-- An op-code step of the encoder is one more step of the decoder. -/
theorem Enc.Mirrored.opStep {cfg : ImageConfig} {pix : List Pixel} {e : Enc} {raw : Pixel} (hat : e.AtRecord raw)
    (h : e.Mirrored cfg pix) : (e.opStep raw).Mirrored cfg pix := by
  obtain ⟨hcfg, hpix, k, hrun⟩ := h
  refine ⟨hcfg, hpix, k + 1, fun tail htail => ?_⟩
  have hbefore := hrun (encode (e.choose (resolve e.cfg.channels raw)) ++ tail)
    (by rw [List.length_append]; omega)
  rw [Enc.opStep, Enc.retire_out, List.append_assoc]
  exact decodeRun_snoc hbefore rfl (Enc.mirror_step hat rfl rfl htail State.reset)

end Sys2Proof.Machine

open Sys2Proof Sys2Proof.Machine

/-- Settles O48: the footer ends the mirror's call, with the configuration and all the resolved pixels as its result. -/
theorem decodeOfEncodeGivesTheImage : Obligations.DecodeOfEncodeGivesTheImage := by
  intro cfg pix hlegal
  obtain ⟨e, hcall, hpos, hcfg, hpix, k, hrun⟩ :=
    encodeCall_induction hlegal (Enc.mirrored_emitHeader hlegal) fun _ _ => Enc.Mirrored.opStep
  refine ⟨e.out ++ footer, hcall, ?_⟩
  have hend := decodeRun_snoc (hrun footer (by decide)) rfl
    ((decStep_eq_opStep rfl rfl).trans (opStep_of_footer (Enc.mirror_rest e footer)))
  have hall : e.pix.take e.pos = pix := by
    rw [hpos, Enc.n, hcfg, hpix, ← hlegal.1, List.take_length]
  rw [decodeCall_of_ended_run hend rfl, ← hcfg, ← hall]
  rfl
end

section
/-! O27, O51. The op-code loop does not read the header values (R149, R150): with other values every step, and so the whole
call after the header, is the same but for them. -/

namespace Sys2Proof.Machine

/-- The machine with other header values in its decoder. -/
def State.withCfg (c : ImageConfig) (s : State) : State := { s with dec := { s.dec with cfg := c } }

/-- The image with other header values. -/
def Image.withCfg (c : ImageConfig) (image : Image) : Image := { image with cfg := c }

/-- An op step leaves the header accepted, or not, as it was. -/
theorem opStep_headerOk {s t : State} (h : opStep s = .next t) : t.dec.headerOk = s.dec.headerOk := by
  obtain ⟨u, hu, hkept, -⟩ := opStep_progress s
  cases hu.symm.trans h
  exact hkept

section
variable (c : ImageConfig)

/-- R149: no op-code's pixel depends on the header values. -/
theorem opPixel_withCfg (i : Instr) (d : Dec) : opPixel i { d with cfg := c } = opPixel i d := by
  cases i with
  | _ => rfl

/-- R149: the op step is the same but for the header values. -/
theorem opStep_withCfg (s : State) : ∃ t, opStep s = .next t ∧ opStep (s.withCfg c) = .next (t.withCfg c) := by
  by_cases hrest : s.dec.rest = footer
  · exact ⟨_, opStep_of_footer hrest, opStep_of_footer (s := s.withCfg c) hrest⟩
  · by_cases hrem : s.dec.rem < 8
    · exact ⟨_, opStep_of_truncated hrest hrem, opStep_of_truncated (s := s.withCfg c) hrest hrem⟩
    · have hlong := Nat.le_of_not_lt hrem
      obtain ⟨i, left, hdecode, hi, hfit⟩ := exists_op hrest hlong
      refine ⟨_, opStep_of_op hdecode hi hlong hfit, ?_⟩
      rw [opStep_of_op (s := s.withCfg c) hdecode hi hlong hfit, State.withCfg, opPixel_withCfg]
      rfl

/-- R149 for a whole run from an op boundary. -/
theorem decodeRun_withCfg {k : Nat} {s t : State} (hh : s.dec.headerOk = true) (h : decodeRun k s = .next t) :
    decodeRun k (s.withCfg c) = .next (t.withCfg c) := by
  induction k generalizing s with
  | zero => cases h; rfl
  | succ k ih =>
    obtain ⟨hb, rfl⟩ | ⟨u, hb, hstep, hrun⟩ := decodeRun_succ_cases h
    · exact decodeRun_of_not_busy (s := t.withCfg c) _ hb
    · rw [decStep_eq_opStep hb hh] at hstep
      obtain ⟨u', hop, hopc⟩ := opStep_withCfg c s
      cases hop.symm.trans hstep
      have hstepc : decStep (s.withCfg c) = .next (u.withCfg c) := (decStep_eq_opStep (s := s.withCfg c) hb hh).trans hopc
      rw [decodeRun_succ_of_step (s := s.withCfg c) k hb hstepc]
      exact ih ((opStep_headerOk hop).trans hh) hrun

/-- Of a call's result only the image shows the header values. -/
theorem result_withCfg (s : State) : (s.withCfg c).dec.result = s.dec.result.map (Except.map (Image.withCfg c)) := by
  cases h : s.dec.status with
  | _ => simp [Dec.result, State.withCfg, h, Except.map, Image.withCfg]

end

/-- R149, R150: the bare core's call on the same bytes gives the same pixels or the same offset under any configuration. -/
theorem bareDecodeCall_withCfg (cfg cfg' : ImageConfig) (bytes : List Byte) :
    bareDecodeCall cfg' bytes = (bareDecodeCall cfg bytes).map (Except.map (Image.withCfg cfg')) := by
  obtain ⟨t, hrun, -⟩ := decodeRun_ends (bytes.length + 1) { State.reset with dec := Dec.bareStart cfg bytes } rfl
    (Nat.lt_succ_of_le (Nat.sub_le _ _))
  rw [bareDecodeCall_of_run hrun, ← result_withCfg]
  exact bareDecodeCall_of_run (decodeRun_withCfg cfg' rfl hrun)

/-- R99: a header that fails a check gives the call's result. -/
theorem decodeCall_of_headerError {bytes : List Byte} {o : Nat} (h : headerError bytes = some o) :
    decodeCall bytes = some (.error o) :=
  decodeCall_of_run (decodeRun_of_headerError h bytes.length State.reset)

/-- R99: a header with no byte after it is one byte too short. -/
theorem decodeCall_header_alone (cfg : ImageConfig) : decodeCall (headerBytes cfg) = some (.error 13) :=
  decodeCall_of_headerError (headerError_of_short rfl (Nat.le_refl 14))

/-- The bytes after a completed op. -/
theorem Dec.rest_retire {d : Dec} {i : Instr} {tail : List Byte} (p : Pixel) (k : Nat) (hrest : d.rest = encode i ++ tail) :
    (d.retire p k i.length).rest = tail := by
  rw [Dec.rest, Dec.retire_stream, Dec.retire_off, ← List.drop_drop, ← Dec.rest, hrest, ← encode_length, List.drop_left]

/-- R138, R148: where one well-formed op-code stands before the footer, two steps complete it and end the call. -/
theorem decodeRun_single_op {s : State} {i : Instr} (hb : s.dec.busy = true) (hh : s.dec.headerOk = true)
    (hwf : i.wf = true) (hi : i ≠ .endMark) (hrest : s.dec.rest = encode i ++ footer) :
    decodeRun 2 s =
      .next { s with dec := { s.dec.retire (opPixel i s.dec) i.pixels i.length with status := .done } } := by
  have hop : decodeRun 1 s = .next { s with dec := s.dec.retire (opPixel i s.dec) i.pixels i.length } :=
    decodeRun_succ_of_step 0 hb ((decStep_eq_opStep hb hh).trans (opStep_of_encode hwf hi (by decide) hrest))
  refine decodeRun_snoc hop hb ((decStep_eq_opStep ?_ ?_).trans (opStep_of_footer (Dec.rest_retire _ _ hrest)))
  · exact hb
  · exact hh

/-- R145, R148: one RUN op after a legal header decodes to its length of copies of the reset `PREV`. -/
theorem decodeCall_single_run {cfg : ImageConfig} {len : Nat} (hc : legalChannels cfg.channels = true)
    (hs : legalColorspace cfg.colorspace = true) (hwf : (Instr.run len).wf = true) :
    decodeCall (headerBytes cfg ++ (encode (.run len) ++ footer)) =
      some (.ok ⟨cfg, List.replicate len Config.prevInit⟩) := by
  have hne : encode (.run len) ++ footer ≠ [] := List.cons_ne_nil _ _
  have hrun := (decodeRun_headerBytes hc hs hne 2 State.reset).trans (decodeRun_single_op rfl rfl hwf nofun rfl)
  rw [decodeCall_of_ended_run hrun rfl]
  simp [Dec.result, opPixel, Instr.pixels]

end Sys2Proof.Machine

open Sys2Proof Sys2Proof.Machine

/-- Settles O27: at an op boundary the step is the op step, which is the same but for the header values. -/
theorem decoderIsChannelBlind : Obligations.DecoderIsChannelBlind := by
  intro s t c more hat hstep
  obtain ⟨u, hop, hopc⟩ := opStep_withCfg c { s with inputs := more }
  rw [step_eq_opStep hat] at hstep
  cases hop.symm.trans hstep
  exact (step_eq_opStep (s := s.withCfg c) hat).trans hopc

/-- Settles O51: after a legal header the call is the bare core's, which does not read the configuration. -/
theorem pixelCountIsNotChecked : Obligations.PixelCountIsNotChecked := by
  refine ⟨fun cfg cfg' bytes hc hs hc' hs' => ?_, fun cfg len hc hs hwf => ?_⟩
  · by_cases hb : bytes = []
    · rw [hb, List.append_nil, List.append_nil, decodeCall_header_alone, decodeCall_header_alone]
      rfl
    · rw [decodeCall_headerBytes hc hs hb, decodeCall_headerBytes hc' hs' hb, bareDecodeCall_withCfg cfg cfg']
      cases bareDecodeCall cfg bytes with
      | none => rfl
      | some r => cases r <;> rfl
  · rw [List.append_assoc]
    exact decodeCall_single_run hc hs hwf
end

section
/-! O43. The start of a call is not taken while its engine's call runs (R163): the step is then the engine's own, which a
running call always has, and which keeps the host's list, the other engine and the input the call was given. -/

namespace Sys2Proof.Machine

/-! ### The decoder's own step -/

/-- The decoder of a call in progress always has a next state. -/
theorem decStep_of_busy {s : State} (hb : s.dec.busy = true) : ∃ t, decStep s = .next t := by
  cases hh : s.dec.headerOk with
  | false =>
    have hheader : decStep s = headerStep s := by simp [decStep, hb, hh]
    obtain ⟨o, -, hraise⟩ | ⟨-, haccept⟩ := headerStep_cases s
    · exact ⟨_, hheader.trans hraise⟩
    · exact ⟨_, hheader.trans haccept⟩
  | true =>
    obtain ⟨t, ht, -, -⟩ := opStep_progress s
    exact ⟨t, (decStep_eq_opStep hb hh).trans ht⟩

/-- A decoder step leaves the host's list as it is. -/
theorem decStep_inputs {s t : State} (h : decStep s = .next t) : t.inputs = s.inputs := by
  have hframe : t = { s with dec := t.dec } := Host.Outcome.next.inj (h.symm.trans (decStep_withEnc s.enc h))
  rw [hframe]

/-! ### The encoder's own step -/

/-- An encoder step leaves the host's list as it is. -/
theorem encStep_inputs {s t : State} (h : encStep s = .next t) : t.inputs = s.inputs := by
  have hframe : t = { s with enc := t.enc } := Host.Outcome.next.inj (h.symm.trans (encStep_withDec h s.dec))
  rw [hframe]

/-- An encoder step leaves the pixels and the configuration of its call as they are. -/
theorem encStep_pix_cfg {s t : State} (h : encStep s = .next t) : t.enc.pix = s.enc.pix ∧ t.enc.cfg = s.enc.cfg := by
  obtain ⟨-, rfl⟩ | ⟨-, -, _, -, rfl⟩ | ⟨-, -, rfl⟩ | ⟨-, -, -, rfl⟩ := encStep_cases h
  · exact ⟨rfl, rfl⟩
  · exact ⟨rfl, rfl⟩
  · exact ⟨rfl, rfl⟩
  · exact ⟨rfl, rfl⟩

/-! ### A start that waits -/

/-- R163: the start of a decode call waits while one runs. -/
theorem step_of_waiting_startDecode {s : State} {bytes : List Byte} {more : List Input}
    (hinputs : s.inputs = .startDecode bytes :: more) (hb : s.dec.busy = true) : step s = decStep s := by
  simp only [step, hinputs, takeInput, if_pos hb]

/-- R163: the start of an encode call waits while one runs. -/
theorem step_of_waiting_startEncode {s : State} {cfg : ImageConfig} {pix : List Pixel} {more : List Input}
    (hinputs : s.inputs = .startEncode cfg pix :: more) (hb : s.enc.busy = true) : step s = encStep s := by
  simp only [step, hinputs, takeInput, if_pos hb]

end Sys2Proof.Machine

open Sys2Proof Sys2Proof.Machine

/-- Settles O43: the start waits, and the running call's own step keeps that call's input, the other engine and the list. -/
theorem runningCallIsNotCancelled : Obligations.RunningCallIsNotCancelled := by
  refine ⟨fun s bytes more hinputs hrunning => ?_, fun s cfg pix more hinputs hphase => ?_⟩
  · have hb : s.dec.busy = true := (Dec.busy_iff s.dec).2 hrunning
    have hstep := step_of_waiting_startDecode hinputs hb
    obtain ⟨t, ht⟩ := decStep_of_busy hb
    exact ⟨hstep, t, hstep.trans ht, decStep_stream ht, decStep_enc ht, decStep_inputs ht⟩
  · have hb : s.enc.busy = true := (Enc.busy_iff s.enc).2 hphase
    have hstep := step_of_waiting_startEncode hinputs hb
    obtain ⟨t, ht⟩ := encStep_of_busy hb
    obtain ⟨hpix, hcfg⟩ := encStep_pix_cfg ht
    exact ⟨hstep, t, hstep.trans ht, hpix, hcfg, encStep_dec ht, encStep_inputs ht⟩
end

section
/-! O40, O41, O42. The start of a call that is taken at once (R180, R184): the step it is, how an encode call breaks its
precondition, and what the machine does beside an encoder whose call was refused (D17). -/

namespace Sys2Proof.Machine

/-! ### A start that is taken -/

/-- R183: with no decode call running, the host's start of one is taken. -/
theorem step_of_taken_startDecode {s : State} {bytes : List Byte} {more : List Input}
    (hinputs : s.inputs = .startDecode bytes :: more) (hb : s.dec.busy = false) :
    step s = .next (startDecode bytes { s with inputs := more }) := by
  simp [step, hinputs, takeInput, hb]

/-- R184: with no encode call running, the host's start of one is taken. -/
theorem step_of_taken_startEncode {s : State} {cfg : ImageConfig} {pix : List Pixel} {more : List Input}
    (hinputs : s.inputs = .startEncode cfg pix :: more) (hb : s.enc.busy = false) :
    step s = .next (startEncode cfg pix { s with inputs := more }) := by
  simp [step, hinputs, takeInput, hb]

/-! ### A broken precondition -/

theorem breach_of_count {cfg : ImageConfig} {pix : List Pixel} (hcount : pix.length ≠ cfg.pixelCount) :
    breach cfg pix = some .pixelCount := if_pos hcount

theorem breach_of_config {cfg : ImageConfig} {pix : List Pixel} (hcount : pix.length = cfg.pixelCount)
    (hillegal : legalChannels cfg.channels = false ∨ legalColorspace cfg.colorspace = false) :
    breach cfg pix = some .imageConfig := by
  rw [breach, if_neg (not_not_intro hcount), if_pos (Bool.and_eq_false_iff.2 hillegal)]

@[simp] theorem Enc.refuse_result (e : Enc) (b : Breach) : (e.refuse b).result = none := rfl

/-- R184, D17: a start with a breach is taken, and it is the encoder alone that is refused. -/
theorem step_of_broken_startEncode {s : State} {cfg : ImageConfig} {pix : List Pixel} {more : List Input} {b : Breach}
    (hinputs : s.inputs = .startEncode cfg pix :: more) (hb : s.enc.busy = false) (hbreach : breach cfg pix = some b) :
    step s = .next { s with enc := s.enc.refuse b, inputs := more } := by
  rw [step_of_taken_startEncode hinputs hb, startEncode_breach hbreach]

/-! ### Beside a refused encoder -/

theorem encStep_of_refused {s : State} {b : Breach} (h : s.enc.phase = .refused b) :
    encStep s = .refused b.refusal := by
  simp [encStep, h]

/-- When the host says nothing and no decode call runs, the step is the encoder's. -/
theorem step_of_silent_host {s : State} (hinputs : s.inputs = []) (hb : s.dec.busy = false) : step s = encStep s := by
  simp [step, hinputs, moveBusy, hb]

/-- R40: when the decoder moves, its running call takes a step and the encoder, whatever its phase, stays as it is. -/
theorem exists_step_of_decMoves {s : State} {more : List Input} (h : DecMoves s more) :
    ∃ t, step s = .next t ∧ t.enc = s.enc := by
  obtain ⟨t, ht⟩ := decStep_of_busy (s := { s with inputs := more }) ((Dec.busy_iff s.dec).2 h.1)
  exact ⟨t, (step_of_decMoves h).trans ht, decStep_enc (s := { s with inputs := more }) ht⟩

end Sys2Proof.Machine

open Sys2Proof Sys2Proof.Machine

/-- Settles O40: the start is taken, and what it leaves is the decoder's reset state on the given bytes. -/
theorem decodeCallStartsFromReset : Obligations.DecodeCallStartsFromReset := by
  intro s bytes more hinputs hover
  have hb : s.dec.busy = false := by rwa [← Bool.not_eq_true, Dec.busy_iff]
  exact ⟨_, step_of_taken_startDecode hinputs hb, rfl, cacheRead_cacheReset, rfl, rfl, rfl, rfl, rfl, rfl, rfl⟩

/-- Settles O41: the start is taken, and on a legal input it leaves the encoder's reset state with that input. -/
theorem encodeCallStartsFromReset : Obligations.EncodeCallStartsFromReset := by
  intro s cfg pix more hinputs hheader hops hlegal
  have hb : s.enc.busy = false := (Enc.not_busy_iff s.enc).2 ⟨hheader, hops⟩
  have hstep := step_of_taken_startEncode hinputs hb
  rw [startEncode_legal hlegal] at hstep
  exact ⟨_, hstep, rfl, cacheRead_cacheReset, rfl, rfl, rfl, rfl, rfl, rfl, rfl⟩

/-- Settles O42: the broken start refuses the encoder alone; the refusal is answered when it is the encoder's step that
is left, a decode call moves as beside any encoder, and the turn finds no running call. -/
theorem brokenEncodeContractIsRefused : Obligations.BrokenEncodeContractIsRefused := by
  refine ⟨fun s cfg pix more hinputs hheader hops => ?_, fun s b hrefused hinputs hover => ?_,
    fun s b more _ hmoves => ?_, fun s b more hrefused hinputs => ?_⟩
  · have hb : s.enc.busy = false := (Enc.not_busy_iff s.enc).2 ⟨hheader, hops⟩
    refine ⟨fun hcount => ?_, fun hcount hillegal => ?_⟩
    · exact ⟨_, step_of_broken_startEncode hinputs hb (breach_of_count hcount), rfl, Enc.refuse_result _ _, rfl, rfl⟩
    · exact ⟨_, step_of_broken_startEncode hinputs hb (breach_of_config hcount hillegal), rfl, Enc.refuse_result _ _, rfl,
        rfl⟩
  · have hb : s.dec.busy = false := by rwa [← Bool.not_eq_true, Dec.busy_iff]
    rw [step_of_silent_host hinputs hb, encStep_of_refused hrefused]
    cases b with
    | pixelCount => rfl
    | imageConfig => rfl
  · exact ⟨step_of_decMoves hmoves, exists_step_of_decMoves hmoves⟩
  · exact turnOfAnEngineWithoutACallPasses.2 s more hinputs (by simp [hrefused]) (by simp [hrefused])
end

section
/-! O5, O6, O10. The decoder and the encoder are inverse to each other (R52 to R59): a well-formed op-code is read back from
its bytes, and what is read packs into the bytes it was read from. -/

namespace Sys2Proof

/-- R52: the range of first bytes that selects each kind. -/
theorem kindOf_cases (b0 : Byte) :
    (kindOf b0 = .index ∧ b0.toNat < 64) ∨ (kindOf b0 = .diff ∧ 64 ≤ b0.toNat ∧ b0.toNat < 128) ∨
      (kindOf b0 = .luma ∧ 128 ≤ b0.toNat ∧ b0.toNat < 192) ∨ (kindOf b0 = .run ∧ 192 ≤ b0.toNat ∧ b0.toNat < 254) ∨
      (kindOf b0 = .rgb ∧ b0 = 0xFE) ∨ (kindOf b0 = .rgba ∧ b0 = 0xFF) := by
  by_cases hff : b0 = 0xFF
  · simp [hff, kindOf]
  by_cases hfe : b0 = 0xFE
  · simp [hfe, kindOf]
  have hlt : b0.toNat < 254 := by
    have h255 : b0.toNat ≠ 255 := fun h => hff (BitVec.eq_of_toNat_eq h)
    have h254 : b0.toNat ≠ 254 := fun h => hfe (BitVec.eq_of_toNat_eq h)
    omega
  rw [kindOf_of_lt_254 hlt]
  split_ifs with h0 h1 h2
  · exact .inl ⟨rfl, by omega⟩
  · exact .inr (.inl ⟨rfl, by omega⟩)
  · exact .inr (.inr (.inl ⟨rfl, by omega⟩))
  · exact .inr (.inr (.inr (.inl ⟨rfl, by omega⟩)))

/-- R119: the byte packed from the number of a byte is that byte. -/
theorem byteOf_eq {v : Int} {b : Byte} (h : v = b.toNat) : byteOf v = b := by
  rw [h, byteOf, BitVec.ofInt_natCast, BitVec.ofNat_toNat, BitVec.setWidth_eq]

/-- R52 to R59: an op-code read from bytes that are not the footer is in the ranges of R59 and packs into the bytes it was
read from. -/
theorem encode_append_of_decode_cons {b0 : Byte} {rest left : List Byte} {i : Instr} (hne : b0 :: rest ≠ footer)
    (h : decode (b0 :: rest) = .ok (i, left)) : i.wf = true ∧ encode i ++ left = b0 :: rest := by
  obtain ⟨-, hhi⟩ | ⟨-, hlo, hhi⟩ | ⟨hkind, hlo, hhi⟩ | ⟨-, hlo, hhi⟩ | ⟨hkind, rfl⟩ | ⟨hkind, rfl⟩ := kindOf_cases b0
  · cases (decode_of_lt_64 hhi hne).symm.trans h
    exact ⟨rfl, congrArg (· :: rest) (byteOf_eq rfl)⟩
  · cases (decode_of_64_le rest hlo hhi).symm.trans h
    exact ⟨(wf_diff_iff _ _ _).2 (by omega), congrArg (· :: rest) (byteOf_eq (by omega))⟩
  · cases rest with
    | nil =>
      rw [decode_cons hne, hkind] at h
      cases h
    | cons b1 tl =>
      have hb1 := b1.isLt
      cases (decode_of_128_le tl b1 hlo hhi).symm.trans h
      refine ⟨(wf_luma_iff _ _ _).2 (by omega), ?_⟩
      rw [encode, byteOf_eq (b := b0) (by omega), byteOf_eq (b := b1) (by omega)]
      rfl
  · cases (decode_of_192_le rest hlo hhi).symm.trans h
    exact ⟨(wf_run_iff _).2 (by omega), congrArg (· :: rest) (byteOf_eq (by omega))⟩
  · rw [decode_cons hne, hkind] at h
    match rest with
    | [] | [_] | [_, _] => cases h
    | _ :: _ :: _ :: _ =>
      cases h
      exact ⟨rfl, rfl⟩
  · rw [decode_cons hne, hkind] at h
    match rest with
    | [] | [_] | [_, _] | [_, _, _] => cases h
    | _ :: _ :: _ :: _ :: _ =>
      cases h
      exact ⟨rfl, rfl⟩

end Sys2Proof

open Sys2Proof

/-- Settles O5: each packed byte is in its kind's range and the fields read from it are those that were packed. -/
theorem decodeOfEncodeGivesTheInstruction : Obligations.DecodeOfEncodeGivesTheInstruction :=
  ⟨fun _ _ hwf hi hne => decode_encode_append hwf hi hne, decode_footer⟩

/-- Settles O6: at the footer END is read, whose encoding it is; elsewhere an op-code packs into the bytes it was read
from. -/
theorem encodeOfDecodeGivesTheBytes : Obligations.EncodeOfDecodeGivesTheBytes := by
  intro bytes i rest h
  by_cases hfooter : bytes = footer
  · rw [hfooter, decode_footer] at h
    cases h
    exact ⟨rfl, hfooter.symm⟩
  · cases bytes with
    | nil => cases h
    | cons b0 tl => exact encode_append_of_decode_cons hfooter h

/-- Settles O10: each word's first byte is in the range of its kind, and no first byte here begins the footer. -/
theorem writtenOutWordsDecode : Obligations.WrittenOutWordsDecode := by
  intro tl _
  refine ⟨?index, ?diff, ?luma, ?run, ?rgb, ?rgba⟩
  case index => exact decode_of_lt_64 (by decide) (cons_ne_footer (by decide) tl)
  case diff => exact decode_of_64_le tl (by decide) (by decide)
  case luma => exact decode_of_128_le tl _ (by decide) (by decide)
  case run => exact decode_of_192_le tl (by decide) (by decide)
  case rgb => exact decode_rgb tl _ _ _
  case rgba => exact decode_rgba tl _ _ _ _
end
